-- ==== Sys2Proof/Word.lean ====
section
/-! DEFINITION. The machine word: a signed 64-bit integer, the one width of memory, parameters, the relative base, input
and output (R4, R5). -/

namespace Sys2Proof

/-- A word: two's-complement signed 64 bits (R5). Its value is `toInt`; its bits are numbered from 0, least significant. -/
abbrev Word := BitVec 64

/-- The 64-bit unsigned instruction pointer (R11). Its value is `toNat`. -/
abbrev Pointer := BitVec 64

end Sys2Proof
end

