-- ==== Sys2Proof/Mode.lean ====
section
/-! DEFINITION. Parameter modes and parameters: the operand forms of every instruction (R45, R46). -/

namespace Sys2Proof

/-- The three parameter modes (R45). Their digit values are `Mode.digit` of Decode.lean. -/
inductive Mode where
  | position    -- the parameter is an address
  | immediate   -- the parameter is a literal value, read-only
  | relative    -- the parameter is an offset added to the relative base to form an address
deriving DecidableEq, Repr

/-- A parameter: its mode (from the opcode word, R43) and its raw parameter word, used whole (R46). -/
structure Param where
  mode : Mode
  raw  : Word
deriving DecidableEq, Repr

end Sys2Proof
end

