-- ==== Sys2Proof/Syntax.lean ====
section
/-! DEFINITION. The instruction set: one constructor per row of spec/opcode_table.json (R44). An instruction is its
opcode word and its parameter words (R42), so it carries every parameter with its mode and raw word, and the mode of
each parameter the opcode does not have (`m2`, `m3` of IN, OUT and ARB, `m3` of the jumps, all three of HALT), which the
decoder checks and the machine ignores (R49). `a`, `b`, `c` are the operands' names in R44. -/

namespace Sys2Proof

inductive Instr where
  | add  (a b c : Param)
  | mul  (a b c : Param)
  | inp  (a : Param) (m2 m3 : Mode)
  | out  (a : Param) (m2 m3 : Mode)
  | jnz  (a b : Param) (m3 : Mode)
  | jz   (a b : Param) (m3 : Mode)
  | lt   (a b c : Param)
  | eq   (a b c : Param)
  | arb  (a : Param) (m2 m3 : Mode)
  | halt (m1 m2 m3 : Mode)
deriving DecidableEq, Repr

end Sys2Proof
end

