-- ==== Sys2Proof/WellFormed.lean ====
section
/-! DEFINITION. The one check an instruction can fail: its write operand must not be in Immediate mode. The types hold
everything else (a mode is one of three, a raw word has 64 bits, each opcode has its own arity). An instruction that
fails the check is a LEGAL ENCODING which faults when executed (R48, R57, R89); it decodes, and step runs it. What
refuses it is the assembler (R54). DESIGN CHOICE, safe: log 8. -/

namespace Sys2Proof

/-- The write operand of an instruction (R44: `c` of ADD, MUL, LT, EQ; `a` of IN), where it has one. -/
def Instr.writeOperand : Instr → Option Param
  | .add _ _ c | .mul _ _ c | .lt _ _ c | .eq _ _ c => some c
  | .inp a _ _ => some a
  | .out _ _ _ | .jnz _ _ _ | .jz _ _ _ | .arb _ _ _ | .halt _ _ _ => none

/-- No write operand in Immediate mode (R54: the assembler refuses the others). -/
def Instr.wellFormed (i : Instr) : Bool :=
  match i.writeOperand with
  | some p => p.mode != .immediate
  | none => true

end Sys2Proof
end

