-- ==== Sys2Proof/Decode.lean ====
section
/-! DEFINITION. The decoder (R43 to R51), total on every word, and the encoder (R52). The fields of an opcode word are
decimal digits, not bit fields (R6). The opcode values and the mode digits stand in ONE table each, `Opcode.value` and
`Mode.digit`: values 2, 5, 6, 7, 9 and digits 1, 2 are what the spec adopts from general knowledge (G1, G2; log 5). -/

namespace Sys2Proof

/-- The ten opcodes (R44), in the source's order. -/
inductive Opcode where
  | add | mul | inp | out | jnz | jz | lt | eq | arb | halt
deriving DecidableEq, Repr

/-- The value of `op` for each opcode (R44). -/
def Opcode.value : Opcode → Nat
  | .add => 1
  | .mul => 2
  | .inp => 3
  | .out => 4
  | .jnz => 5
  | .jz => 6
  | .lt => 7
  | .eq => 8
  | .arb => 9
  | .halt => 99

/-- The fixed number of parameters (R44). -/
def Opcode.arity : Opcode → Nat
  | .add | .mul | .lt | .eq => 3
  | .jnz | .jz => 2
  | .inp | .out | .arb => 1
  | .halt => 0

def Opcode.all : List Opcode := [.add, .mul, .inp, .out, .jnz, .jz, .lt, .eq, .arb, .halt]

/-- `OPCODE[op]` of R47: the opcode whose value is `n`, if there is one. -/
def opcodeOf (n : Nat) : Option Opcode := Opcode.all.find? (fun o => o.value == n)

/-- The digit of each mode (R45). -/
def Mode.digit : Mode → Nat
  | .position => 0
  | .immediate => 1
  | .relative => 2

def Mode.all : List Mode := [.position, .immediate, .relative]

/-- `MODE[d]` of R47: the mode whose digit is `d`, if there is one. -/
def modeOf (d : Nat) : Option Mode := Mode.all.find? (fun m => m.digit == d)

/-- `digit(w, j)` of R6: the decimal digit of weight `10^j`. -/
def decimalDigit (w j : Nat) : Nat := w / 10 ^ j % 10

/-- What the decoder raises (R47, R48). The `ip` of the record is added by fault entry (R93). -/
inductive DecodeError where
  | illegalOpcode (w : Word)           -- R48 (a) to (c), carrying the raw word
  | invalidParameterMode (digit : Nat) -- R48 (d), carrying the digit
deriving DecidableEq, Repr

/-- `{opcode, modes: [mode1, mode2, mode3]}` of R47. -/
structure Decoded where
  opcode : Opcode
  m1 : Mode
  m2 : Mode
  m3 : Mode
deriving DecidableEq, Repr

/-- One mode digit of R47's loop: the mode, or `InvalidParameterMode` with the digit. -/
def decodeMode (d : Nat) : Except DecodeError Mode :=
  match modeOf d with
  | some m => .ok m
  | none => .error (.invalidParameterMode d)

/-- `Decode(w, ip)` of R47, its checks in the order written there: negative, unknown `op`, a digit above the third mode
digit, then the mode digits of parameters 1, 2, 3. It reads nothing but `w`. -/
def decodeOpcodeWord (w : Word) : Except DecodeError Decoded :=
  if w.toInt < 0 then .error (.illegalOpcode w)
  else
    match opcodeOf (w.toNat % 100) with
    | none => .error (.illegalOpcode w)
    | some op =>
      if w.toNat / 100000 ≠ 0 then .error (.illegalOpcode w)
      else
        match decodeMode (decimalDigit w.toNat 2) with
        | .error e => .error e
        | .ok m1 =>
          match decodeMode (decimalDigit w.toNat 3) with
          | .error e => .error e
          | .ok m2 =>
            match decodeMode (decimalDigit w.toNat 4) with
            | .error e => .error e
            | .ok m3 => .ok { opcode := op, m1 := m1, m2 := m2, m3 := m3 }

/-- The instruction of a decoded opcode word and its parameter words (`raw k` is parameter word `k`; only
`1 .. arity` are used, R46). -/
def Decoded.toInstr (d : Decoded) (raw : Nat → Word) : Instr :=
  match d.opcode with
  | .add => .add ⟨d.m1, raw 1⟩ ⟨d.m2, raw 2⟩ ⟨d.m3, raw 3⟩
  | .mul => .mul ⟨d.m1, raw 1⟩ ⟨d.m2, raw 2⟩ ⟨d.m3, raw 3⟩
  | .inp => .inp ⟨d.m1, raw 1⟩ d.m2 d.m3
  | .out => .out ⟨d.m1, raw 1⟩ d.m2 d.m3
  | .jnz => .jnz ⟨d.m1, raw 1⟩ ⟨d.m2, raw 2⟩ d.m3
  | .jz => .jz ⟨d.m1, raw 1⟩ ⟨d.m2, raw 2⟩ d.m3
  | .lt => .lt ⟨d.m1, raw 1⟩ ⟨d.m2, raw 2⟩ ⟨d.m3, raw 3⟩
  | .eq => .eq ⟨d.m1, raw 1⟩ ⟨d.m2, raw 2⟩ ⟨d.m3, raw 3⟩
  | .arb => .arb ⟨d.m1, raw 1⟩ d.m2 d.m3
  | .halt => .halt d.m1 d.m2 d.m3

/-- The instruction whose word `k` is `word k`, `word 0` its opcode word (R42). -/
def decode (word : Nat → Word) : Except DecodeError Instr :=
  match decodeOpcodeWord (word 0) with
  | .error e => .error e
  | .ok d => .ok (d.toInstr word)

/-- Decoding a list of words. A word past the end of the list is 0, as a word past the end of the tape is (R46, R48). -/
def decodeWords (ws : List Word) : Except DecodeError Instr := decode (fun k => ws.getD k 0)

/-- `Encode(op, m1, m2, m3)` of R52. -/
def encodeOpcode (op : Opcode) (m1 m2 m3 : Mode) : Word :=
  BitVec.ofNat 64 (op.value + 100 * m1.digit + 1000 * m2.digit + 10000 * m3.digit)

/-- The words of an instruction: the opcode word, then the parameter words (R42, R52, R54). -/
def encode : Instr → List Word
  | .add a b c => [encodeOpcode .add a.mode b.mode c.mode, a.raw, b.raw, c.raw]
  | .mul a b c => [encodeOpcode .mul a.mode b.mode c.mode, a.raw, b.raw, c.raw]
  | .inp a m2 m3 => [encodeOpcode .inp a.mode m2 m3, a.raw]
  | .out a m2 m3 => [encodeOpcode .out a.mode m2 m3, a.raw]
  | .jnz a b m3 => [encodeOpcode .jnz a.mode b.mode m3, a.raw, b.raw]
  | .jz a b m3 => [encodeOpcode .jz a.mode b.mode m3, a.raw, b.raw]
  | .lt a b c => [encodeOpcode .lt a.mode b.mode c.mode, a.raw, b.raw, c.raw]
  | .eq a b c => [encodeOpcode .eq a.mode b.mode c.mode, a.raw, b.raw, c.raw]
  | .arb a m2 m3 => [encodeOpcode .arb a.mode m2 m3, a.raw]
  | .halt m1 m2 m3 => [encodeOpcode .halt m1 m2 m3]

/-- The opcode of an instruction. -/
def Instr.opcode : Instr → Opcode
  | .add _ _ _ => .add
  | .mul _ _ _ => .mul
  | .inp _ _ _ => .inp
  | .out _ _ _ => .out
  | .jnz _ _ _ => .jnz
  | .jz _ _ _ => .jz
  | .lt _ _ _ => .lt
  | .eq _ _ _ => .eq
  | .arb _ _ _ => .arb
  | .halt _ _ _ => .halt

/-- The four 64-bit words (the longest instruction has four, R42) of a number whose bit 0 is the least significant bit of
the first word; bits from `nbits` up are 0. The machine stores whole words and has no byte order (R32). -/
def wordsOfBits (nbits w : Nat) : List Word :=
  let v := w % 2 ^ nbits
  [BitVec.ofNat 64 v, BitVec.ofNat 64 (v / 2 ^ 64), BitVec.ofNat 64 (v / 2 ^ 128), BitVec.ofNat 64 (v / 2 ^ 192)]

/-- The instruction the decoder reads from a number laid out as words by `wordsOfBits`. -/
def decodeTableWord (nbits w : Nat) : Option Instr :=
  match decodeWords (wordsOfBits nbits w) with
  | .ok i => some i
  | .error _ => none

end Sys2Proof
end

