-- ==== Sys2Proof/Config.lean ====
section
/-! DEFINITION. The block's parameters (R4): fixed for an instance, changed by no instruction and no host command (R22).
The spec leaves their values open ("a named parameter the model takes as an argument"); the model carries them in
State (DESIGN CHOICE, safe: log 1), so that a statement about every state holds for every value of them. -/

namespace Sys2Proof

/-- `OVERFLOW_POLICY` (R4): what a signed 64-bit overflow in an add, a multiply, a relative-base adjust or a Relative
address does (R58, R71). -/
inductive OverflowPolicy where
  | fault   -- raises `ArithmeticOverflow`
  | wrap    -- gives the low 64 bits of the two's-complement result
deriving DecidableEq, Repr

/-- The three OPEN parameters of R4. -/
structure Params where
  /-- `MEM_CAPACITY`: the number of words the memory array can hold. -/
  memCapacity    : Nat
  /-- `READ_EXTENDS`: whether an operand read beyond the tape length lengthens the tape (R30). -/
  readExtends    : Bool
  /-- `OVERFLOW_POLICY`. -/
  overflowPolicy : OverflowPolicy
deriving DecidableEq, Repr

/-- The reference values of R4, which the spec's test vectors use. -/
def Params.reference : Params :=
  { memCapacity := 2 ^ 63, readExtends := false, overflowPolicy := .fault }

/-- The range R4 gives: `1 <= MEM_CAPACITY <= 2^63`. -/
abbrev Params.Valid (P : Params) : Prop := 1 ≤ P.memCapacity ∧ P.memCapacity ≤ 2 ^ 63

end Sys2Proof
end

