-- ==== Sys2Proof/Machine/State.lean ====
section
/-! DEFINITION. All the state the spec gives one instance (10_state.md), as plain data, and State.reset. -/

namespace Sys2Proof.Machine

/-- Run status `ST` (R17). -/
inductive Status where
  | running   -- not halted, not blocked, not faulted: from LOAD until the first RUN, and during a run
  | halted    -- after HALT; terminal under RUN
  | blocked   -- after an IN on an empty input FIFO; left by the next RUN
  | faulted   -- after a fatal fault; sticky (R68)
deriving DecidableEq, Repr

/-- The six fault kinds of R85, in the order of their codes 1 to 6. -/
inductive FaultKind where
  | illegalOpcode
  | invalidParameterMode
  | negativeAddress
  | writeToImmediate
  | arithmeticOverflow
  | memoryCapacityExceeded
deriving DecidableEq, Repr

/-- The fault record (R18): `value` is the raw instruction word for `IllegalOpcode`, the offending digit for
`InvalidParameterMode`, and absent for the other kinds. -/
structure FaultRecord where
  kind  : FaultKind
  ip    : Pointer
  value : Option Word
deriving DecidableEq, Repr

/-- What `raise` names (R7): a fault of R85 with what it carries besides the `ip`, which fault entry adds (R93). -/
inductive FaultCause where
  | illegalOpcode (w : Word)            -- R86
  | invalidParameterMode (digit : Nat)  -- R87
  | negativeAddress                     -- R88
  | writeToImmediate                    -- R89
  | arithmeticOverflow                  -- R90
  | memoryCapacityExceeded              -- R91
deriving DecidableEq, Repr

/-- The memory array `M` (R13): (address, word) pairs. Canonical form (`Memory.wf`): addresses strictly rising, no pair
whose word is 0. An unlisted address reads as 0, as the spec says (R13, R25). One pair holds one 64-bit word: the core
has no byte-addressed view (R32). -/
abbrev Memory := List (Nat × Word)

/-- The state of one instance (R11 to R18), and the block's parameters (R4), which no step changes (R22; log 1). -/
structure State where
  /-- `IP` (R11). -/
  ip     : Pointer
  /-- `RB` (R12). -/
  rb     : Word
  /-- `M` (R13). -/
  mem    : Memory
  /-- `LEN` (R14). -/
  len    : Nat
  /-- `IQ`, front first (R15). -/
  iq     : List Word
  /-- `OB`, oldest first (R16). -/
  ob     : List Word
  /-- `ST` (R17). -/
  st     : Status
  /-- `FR` (R18). -/
  fr     : Option FaultRecord
  /-- `MEM_CAPACITY`, `READ_EXTENDS`, `OVERFLOW_POLICY` (R4). -/
  params : Params
deriving DecidableEq, Repr

/-- Reasons the model's step stops outside the state: NONE, so the type has no constructor and nobody raises one (safe).
Every fault of the spec is taken: fault entry (R93) is a next state with `ST = FAULTED` and `FR` the record. -/
inductive Fault : Type
deriving DecidableEq, Repr

/-- Reasons an instruction has no meaning in the model. -/
inductive Refusal where
  /-- An instruction without a meaning yet, by its mnemonic. Raised only by an arm of `exec`; no arm does (safe). -/
  | notModelled (mnemonic : String)
deriving DecidableEq, Repr

/-- The state after reset: LOAD of the empty program (R25, R107, which accepts one) into a block with the reference
parameters. A program is loaded by the host (`load` in HostCommands.lean; log 2). -/
def State.reset : State :=
  { ip := 0, rb := 0, mem := [], len := 0, iq := [], ob := [], st := .running, fr := none,
    params := Params.reference }

end Sys2Proof.Machine
end

