-- ==== Sys2Proof/Machine/Ops.lean ====
section
/-! DEFINITION. The named operations on memory and registers: `MemRead`, `MemWrite`, tape extension (20_memory.md), the
instruction-pointer update (R61), fault entry (R93), blocking (R78) and resumption (R67). -/

namespace Sys2Proof.Machine

/-- What a meaning answers. -/
abbrev Result := Host.Outcome State Fault Refusal

/-! ## The memory array -/

/-- `M[a]`: the stored word; 0 where nothing is stored (R13). -/
def Memory.read : Memory → Nat → Word
  | [], _ => 0
  | (b, w) :: m, a => if a = b then w else Memory.read m a

/-- The memory without what stands at address `a`. -/
def Memory.erase (m : Memory) (a : Nat) : Memory := m.filter (fun c => c.1 != a)

/-- The memory with a pair at its place in the order of addresses. -/
def Memory.insert : Memory → Nat → Word → Memory
  | [], a, v => [(a, v)]
  | (b, w) :: m, a, v => if a < b then (a, v) :: (b, w) :: m else (b, w) :: Memory.insert m a v

/-- `M[a] <- v`, in canonical form: storing 0 removes the pair. -/
def Memory.write (m : Memory) (a : Nat) (v : Word) : Memory :=
  if v = 0 then m.erase a else (m.erase a).insert a v

/-- `M[lo] .. M[hi-1] <- 0`: the zero fill of R29. -/
def Memory.zeroFill (m : Memory) (lo hi : Nat) : Memory := m.filter (fun c => !(lo ≤ c.1 && c.1 < hi))

/-- The memory that holds the words of a list from address `a` up, and 0 elsewhere (R107). -/
def Memory.ofWords : Nat → List Word → Memory
  | _, [] => []
  | a, w :: ws => if w = 0 then Memory.ofWords (a + 1) ws else (a, w) :: Memory.ofWords (a + 1) ws

/-- Canonical from address `lo` up: addresses strictly rising and at least `lo`, no word 0. -/
def Memory.wfFrom : Nat → Memory → Bool
  | _, [] => true
  | lo, (a, w) :: m => decide (lo ≤ a) && w != 0 && Memory.wfFrom (a + 1) m

/-- The canonical form: addresses strictly rising, no pair whose word is 0. -/
def Memory.wf (m : Memory) : Bool := Memory.wfFrom 0 m

/-! ## Reads and writes of the tape -/

/-- `MemRead(a)` (R28): `M[a]` below the tape length, 0 from there up; total on every address, changes nothing. -/
def memRead (s : State) (a : Nat) : Word := if a < s.len then s.mem.read a else 0

/-- Lengthens the tape to hold address `a`: the new words `M[LEN] .. M[a]` are 0 and `LEN <- a + 1` (R29, R30). A tape
that holds `a` already is left as it is: it never shrinks (R31). -/
def extendTape (a : Nat) (s : State) : State :=
  if s.len ≤ a then { s with mem := s.mem.zeroFill s.len (a + 1), len := a + 1 } else s

/-- `MemWrite(a, v)` (R29). The caller has checked `a < MEM_CAPACITY` (R57). -/
def memWrite (a : Nat) (v : Word) (s : State) : State :=
  { extendTape a s with mem := (extendTape a s).mem.write a v }

/-- `ExtendOnRead(a)` (R30): under `READ_EXTENDS` an operand read below `MEM_CAPACITY` lengthens the tape. -/
def extendOnRead (a : Nat) (s : State) : State :=
  if s.params.readExtends = true ∧ a < s.params.memCapacity then extendTape a s else s

/-! ## The instruction pointer -/

/-- `IP <- ip + n`: `n` is `1 + arity` of a completed instruction (R61). -/
def advance (n : Nat) (s : State) : State := { s with ip := s.ip + BitVec.ofNat 64 n }

/-! ## Taking a fault, blocking, resuming -/

/-- The kind of a cause (R85). -/
def FaultCause.kind : FaultCause → FaultKind
  | .illegalOpcode _ => .illegalOpcode
  | .invalidParameterMode _ => .invalidParameterMode
  | .negativeAddress => .negativeAddress
  | .writeToImmediate => .writeToImmediate
  | .arithmeticOverflow => .arithmeticOverflow
  | .memoryCapacityExceeded => .memoryCapacityExceeded

/-- What the record carries besides the kind and the `ip` (R85). -/
def FaultCause.value : FaultCause → Option Word
  | .illegalOpcode w => some w
  | .invalidParameterMode d => some (BitVec.ofNat 64 d)
  | .negativeAddress | .writeToImmediate | .arithmeticOverflow | .memoryCapacityExceeded => none

/-- FAULT ENTRY (R93), the one shared operation: `FR` is the record with the address of the faulting instruction's opcode
word (which `IP` holds throughout the instruction), `ST <- FAULTED`, `IP` kept, control goes to no handler. There is no
return from it (R95). That the rest of the state is unchanged is the spec's reference behaviour (R62, R93); U1 calls it
undefined, and no statement rests on it but OutputBufferUnread in its faulted next states (log 4). -/
def takeFault (c : FaultCause) (s : State) : State :=
  { s with fr := some { kind := c.kind, ip := s.ip, value := c.value }, st := .faulted }

/-- The block of an IN on an empty `IQ` (R78): `ST <- BLOCKED` and nothing else. -/
def block (s : State) : State := { s with st := .blocked }

/-- The start of a RUN on a blocked instance (R67): `ST <- RUNNING`; the IN at `IP` is then executed again. This is the
only resumption the core has (R95). -/
def resume (s : State) : State := { s with st := .running }

end Sys2Proof.Machine
end

