-- ==== Sys2Proof/Machine/Arithmetic.lean ====
section
/-! DEFINITION. Integer arithmetic (R5, R71): exact integer results, then `Fit`, the one place where the overflow policy
acts. -/

namespace Sys2Proof.Machine

/-- The range of a word (R5): `i64`. -/
abbrev IsWord (x : Int) : Prop := -(2 ^ 63) ≤ x ∧ x ≤ 2 ^ 63 - 1

/-- `wrap64(x)` (R5): the unique word congruent to `x` modulo `2^64`. -/
def wrap64 (x : Int) : Word := BitVec.ofInt 64 x

/-- `Fit(s, ip)` (R71), which is also the test of `EffRel` (R58): an exact result in the range of a word is the result;
otherwise `ArithmeticOverflow` under `Fault`, the wrapped word under `Wrap`. -/
def fit (P : Params) (x : Int) : Except FaultCause Word :=
  if IsWord x then .ok (wrap64 x)
  else
    match P.overflowPolicy with
    | .fault => .error .arithmeticOverflow
    | .wrap => .ok (wrap64 x)

/-- `add64(x, y, ip)` (R71). -/
def add64 (P : Params) (x y : Word) : Except FaultCause Word := fit P (x.toInt + y.toInt)

/-- `mul64(x, y, ip)` (R71). -/
def mul64 (P : Params) (x y : Word) : Except FaultCause Word := fit P (x.toInt * y.toInt)

end Sys2Proof.Machine
end

