-- ==== Sys2Proof/Machine/Flags.lean ====
section
/-! DEFINITION. The core has no flags (R19). What another machine keeps in flags are words here: the results of LT and EQ
(R74, R75) and the conditions of the jumps (R81, R82). -/

namespace Sys2Proof.Machine

/-- A Boolean result as a word: exactly 1 or 0. -/
def boolWord (b : Bool) : Word := if b then 1 else 0

/-- The result of LT (R74): signed comparison, exact, never overflows (R71). -/
def lessThan64 (_ : Params) (x y : Word) : Except FaultCause Word := .ok (boolWord (decide (x.toInt < y.toInt)))

/-- The result of EQ (R75). -/
def equal64 (_ : Params) (x y : Word) : Except FaultCause Word := .ok (boolWord (decide (x.toInt = y.toInt)))

/-- The condition of JNZ (R81): any non-zero word, negative included. -/
def isNonzero (x : Word) : Bool := x != 0

/-- The condition of JZ (R82): only the word 0. -/
def isZero (x : Word) : Bool := x == 0

end Sys2Proof.Machine
end

