-- ==== Sys2Proof/Machine/Operands.lean ====
section
/-! DEFINITION. The operand resolver (40_operand_resolver.md): `ReadOperand`, `WriteAddr`, `EffRel`, and how a meaning
goes on after one of them or takes the fault it raises. -/

namespace Sys2Proof.Machine

/-- What resolving a read operand gives: a word, or a fault; with the state after it, which differs from the state before
only in the tape's length under `READ_EXTENDS` (R30, R62). -/
inductive Resolved where
  | ok    (v : Word) (s : State)
  | fault (c : FaultCause) (s : State)
deriving DecidableEq, Repr

/-- `EffRel(raw, ip)` (R58): `RB + raw`, by the overflow policy. -/
def effRel (raw : Word) (s : State) : Except FaultCause Word := fit s.params (s.rb.toInt + raw.toInt)

/-- The last four lines of `ReadOperand` (R56): the check for a negative address, `MemRead`, `ExtendOnRead`. -/
def readAt (a : Word) (s : State) : Resolved :=
  if a.toInt < 0 then .fault .negativeAddress s
  else .ok (memRead s a.toNat) (extendOnRead a.toNat s)

/-- `ReadOperand(mode, raw, ip)` (R56). -/
def readOperand (p : Param) (s : State) : Resolved :=
  match p.mode with
  | .immediate => .ok p.raw s
  | .position => readAt p.raw s
  | .relative =>
    match effRel p.raw s with
    | .error c => .fault c s
    | .ok a => readAt a s

/-- The last three lines of `WriteAddr` (R57): the checks for a negative address and for `MEM_CAPACITY`. -/
def checkWrite (a : Word) (s : State) : Except FaultCause Nat :=
  if a.toInt < 0 then .error .negativeAddress
  else if s.params.memCapacity ≤ a.toNat then .error .memoryCapacityExceeded
  else .ok a.toNat

/-- `WriteAddr(mode, raw, ip)` (R57): the address a result will be stored at. It changes nothing. -/
def writeAddr (p : Param) (s : State) : Except FaultCause Nat :=
  match p.mode with
  | .immediate => .error .writeToImmediate
  | .position => checkWrite p.raw s
  | .relative =>
    match effRel p.raw s with
    | .error c => .error c
    | .ok a => checkWrite a s

/-- Go on with a resolved read operand, or take the fault it raised (R59, R93). -/
def Resolved.andThen (r : Resolved) (k : Word → State → Result) : Result :=
  match r with
  | .ok v s => k v s
  | .fault c s => .next (takeFault c s)

/-- Go on with a value computed in state `s`, or take the fault its computation raised (R93). -/
def orFault {α : Type} (e : Except FaultCause α) (s : State) (k : α → Result) : Result :=
  match e with
  | .ok v => k v
  | .error c => .next (takeFault c s)

end Sys2Proof.Machine
end

