-- ==== Sys2Proof/Machine/Alu.lean ====
section
/-! DEFINITION. The ALU instructions ADD, MUL, LT, EQ, ARB (42_alu.md). -/

namespace Sys2Proof.Machine

/-- The common shape of ADD, MUL, LT and EQ (R72 to R75): `a` and `b` are read and `c`'s address resolved, in that order
(R59), before the effect; then the result is computed, stored, and `IP` advances by 4. A Relative `c` uses the `RB` of
the instruction's start, and reads change neither `RB` nor the parameters. -/
def execBinary (f : Params → Word → Word → Except FaultCause Word) (a b c : Param) (s : State) : Result :=
  (readOperand a s).andThen fun x s1 =>
  (readOperand b s1).andThen fun y s2 =>
  orFault (writeAddr c s) s2 fun d =>
  orFault (f s.params x y) s2 fun r =>
  .next (advance 4 (memWrite d r s2))

/-- ADD (R72): `write(c, read(a) + read(b))`. -/
def execAdd (a b c : Param) (s : State) : Result := execBinary add64 a b c s

/-- MUL (R73): `write(c, read(a) * read(b))`. -/
def execMul (a b c : Param) (s : State) : Result := execBinary mul64 a b c s

/-- LT (R74): `write(c, 1 if read(a) < read(b) else 0)`. -/
def execLt (a b c : Param) (s : State) : Result := execBinary lessThan64 a b c s

/-- EQ (R75): `write(c, 1 if read(a) == read(b) else 0)`. -/
def execEq (a b c : Param) (s : State) : Result := execBinary equal64 a b c s

/-- ARB (R76): `relative_base += read(a)`; a Relative `a` uses the old `RB`. -/
def execArb (a : Param) (s : State) : Result :=
  (readOperand a s).andThen fun x s1 =>
  orFault (add64 s1.params s1.rb x) s1 fun r =>
  .next (advance 2 { s1 with rb := r })

end Sys2Proof.Machine
end

