-- ==== Sys2Proof/Machine/Control.lean ====
section
/-! DEFINITION. The control instructions JNZ, JZ, HALT (44_control.md). -/

namespace Sys2Proof.Machine

/-- A taken jump to the word `t` (R81, R82): a negative target raises `NegativeAddress` with `IP` kept (D14); every other
target is accepted. -/
def jumpTo (t : Word) (s : State) : Result :=
  if t.toInt < 0 then .next (takeFault .negativeAddress s) else .next { s with ip := t }

/-- The common shape of the jumps (R81, R82): both operands are resolved before the condition is tested; a jump not taken
advances `IP` by 3 and does not check its target. -/
def execJump (taken : Word → Bool) (a b : Param) (s : State) : Result :=
  (readOperand a s).andThen fun x s1 =>
  (readOperand b s1).andThen fun t s2 =>
  if taken x then jumpTo t s2 else .next (advance 3 s2)

/-- JNZ (R81): if `read(a) != 0`, jump to `read(b)`. -/
def execJnz (a b : Param) (s : State) : Result := execJump isNonzero a b s

/-- JZ (R82): if `read(a) == 0`, jump to `read(b)`. -/
def execJz (a b : Param) (s : State) : Result := execJump isZero a b s

/-- HALT (R83): `ST <- HALTED`, and `IP <- ip + 1` by the general rule (D15). -/
def execHalt (s : State) : Result := .next (advance 1 { s with st := .halted })

end Sys2Proof.Machine
end

