-- ==== Sys2Proof/Machine/Io.lean ====
section
/-! DEFINITION. The I/O instructions IN and OUT (43_io.md). -/

namespace Sys2Proof.Machine

/-- IN (R78): the write operand is resolved first, so its fault wins over the block (D9); an empty `IQ` blocks with no
other effect; otherwise the front of `IQ` is removed and stored, and `IP` advances by 2. -/
def execIn (a : Param) (s : State) : Result :=
  orFault (writeAddr a s) s fun d =>
  match s.iq with
  | [] => .next (block s)
  | v :: rest => .next (advance 2 (memWrite d v { s with iq := rest }))

/-- OUT (R79): appends `read(a)` to `OB`; never blocks. -/
def execOut (a : Param) (s : State) : Result :=
  (readOperand a s).andThen fun x s1 =>
  .next (advance 2 { s1 with ob := s1.ob ++ [x] })

end Sys2Proof.Machine
end

