-- ==== Sys2Proof/Machine/Dispatch.lean ====
section
/-! DEFINITION. One arm per instruction: the unused modes are ignored (R49). -/

namespace Sys2Proof.Machine

def exec (i : Instr) (s : State) : Host.Outcome State Fault Refusal :=
  match i with
  | .add a b c => Sys2Proof.Machine.execAdd a b c s
  | .mul a b c => Sys2Proof.Machine.execMul a b c s
  | .inp a _ _ => Sys2Proof.Machine.execIn a s
  | .out a _ _ => Sys2Proof.Machine.execOut a s
  | .jnz a b _ => Sys2Proof.Machine.execJnz a b s
  | .jz a b _ => Sys2Proof.Machine.execJz a b s
  | .lt a b c => Sys2Proof.Machine.execLt a b c s
  | .eq a b c => Sys2Proof.Machine.execEq a b c s
  | .arb a _ _ => Sys2Proof.Machine.execArb a s
  | .halt _ _ _ => Sys2Proof.Machine.execHalt s

end Sys2Proof.Machine
end

