-- ==== Sys2Proof/Machine/Engine.lean ====
section
/-! DEFINITION. The execution engine's step (R60): fetch, decode, execute; and where a test places an instruction. -/

namespace Sys2Proof.Machine

/-- Word `k` of the instruction at `IP`: `MemRead(IP + k)` (R46, R60). `IP + k` is an integer and does not wrap (R63). -/
def fetchWord (s : State) (k : Nat) : Word := memRead s (s.ip.toNat + k)

/-- Fetch and decode (R60): the instruction at `IP`, read through `MemRead` at the moment it starts (R40); never extends
the tape (R30). -/
def fetch (s : State) : Except DecodeError Instr := decode (fetchWord s)

/-- The fault a decode error raises (R86, R87). -/
def causeOfDecode : DecodeError → FaultCause
  | .illegalOpcode w => .illegalOpcode w
  | .invalidParameterMode d => .invalidParameterMode d

/-- `Step()` (R60): one instruction, or the decoder's fault. Requires `ST = RUNNING`. -/
def runInstruction (s : State) : Result :=
  match fetch s with
  | .error e => .next (takeFault (causeOfDecode e) s)
  | .ok i => exec i s

/-- One step of the engine. A step is taken only while `ST = RUNNING` (R60); in every other status nothing inside the core
changes any state (R66, R68, R106), so the step changes nothing (DEDUCED, safe: log 3). -/
def engineStep (s : State) : Result :=
  match s.st with
  | .running => runInstruction s
  | .halted => .next s
  | .blocked => .next s
  | .faulted => .next s

/-- Stores words at addresses `a`, `a + 1`, ..., as a LOAD does. -/
def placeWords : Nat → List Word → Memory → Memory
  | _, [], m => m
  | a, w :: ws, m => placeWords (a + 1) ws (m.write a w)

/-- The state with the instruction of `nbits` and `w` (see `wordsOfBits`) stored where the next step fetches: its four
words at `IP .. IP + 3`, the tape long enough to hold them, and `ST = RUNNING`, without which no step fetches (log 2). -/
def placeFetchWord (s : State) (nbits w : Nat) : State :=
  { s with
    mem := placeWords s.ip.toNat (wordsOfBits nbits w) s.mem
    len := max s.len (s.ip.toNat + 4)
    st := .running }

end Sys2Proof.Machine
end

