-- ==== Sys2Proof/Machine/Step.lean ====
section
/-! DEFINITION. The machine's step and the host's way to place one instruction; both stand in Engine.lean. -/

namespace Sys2Proof.Machine

/-- One step (R60). -/
def step (s : State) : Host.Outcome State Fault Refusal := engineStep s

/-- `s` with one instruction stored where `step` fetches its next instruction. -/
def State.withFetchWord (s : State) (nbits w : Nat) : State := placeFetchWord s nbits w

end Sys2Proof.Machine
end

