-- ==== Sys2Proof/Machine/Assembler.lean ====
section
/-! DEFINITION. The spec's own assembly syntax (R54) and pseudo-instructions (R55): a function from source text to words.
Notation only (D22): no behaviour of the core depends on it. Comments (`;` to the end of the line) are as the programs of
95_test_vectors.md write them. What R54 does not say (a label defined twice, a character it does not name) is refused
(DESIGN CHOICE, safe: log 9). -/

namespace Sys2Proof.Machine

/-! ## Source lines as data -/

/-- `n` of R54: a decimal word or a label. -/
inductive AsmValue where
  | num   (x : Int)
  | label (name : List Char)
deriving DecidableEq, Repr

/-- An operand of R54: `n`, `[n]`, `[rb+n]` or `[rb-n]`. -/
inductive AsmOperand where
  | imm      (n : AsmValue)
  | pos      (n : AsmValue)
  | relPlus  (n : AsmValue)
  | relMinus (n : AsmValue)
deriving DecidableEq, Repr

/-- What a mnemonic names: an opcode (R44) or a pseudo-instruction (R55). -/
inductive AsmOp where
  | core (op : Opcode)
  | jmp | nop | mov
deriving DecidableEq, Repr

/-- One item of a source line. -/
inductive AsmItem where
  | label (name : List Char)
  | words (ws : List Int)
  | instr (op : AsmOp) (operands : List AsmOperand)
deriving DecidableEq, Repr

/-- Why a source is refused. -/
inductive AsmError where
  | badLine                -- not of the form of R54
  | unknownMnemonic
  | operandCount           -- not exactly `arity` operands
  | immediateDestination   -- a write operand written as `n`
  | notAWord               -- a number outside the range of a word
  | unknownLabel
  | duplicateLabel
deriving DecidableEq, Repr

/-! ## From items to words -/

/-- R55: the opcode and operands a mnemonic stands for. -/
def expandPseudo (op : AsmOp) (operands : List AsmOperand) : Except AsmError (Opcode × List AsmOperand) :=
  match op, operands with
  | .core o, os => .ok (o, os)
  | .jmp, [t] => .ok (.jnz, [.imm (.num 1), t])
  | .nop, [] => .ok (.jz, [.imm (.num 1), .imm (.num 0)])
  | .mov, [s, d] => .ok (.add, [s, .imm (.num 0), d])
  | .jmp, _ => .error .operandCount
  | .nop, _ => .error .operandCount
  | .mov, _ => .error .operandCount

/-- The number of words an item emits. -/
def AsmItem.size : AsmItem → Nat
  | .label _ => 0
  | .words ws => ws.length
  | .instr (.core o) _ => 1 + o.arity
  | .instr .jmp _ => 3
  | .instr .nop _ => 3
  | .instr .mov _ => 4

/-- The address each label names: that of the next word (R54). -/
def labelTable : Nat → List AsmItem → List (List Char × Nat)
  | _, [] => []
  | at_, .label n :: is => (n, at_) :: labelTable at_ is
  | at_, .words ws :: is => labelTable (at_ + (AsmItem.words ws).size) is
  | at_, .instr o os :: is => labelTable (at_ + (AsmItem.instr o os).size) is

/-- A number as a word. -/
def asmWord (x : Int) : Except AsmError Word := if IsWord x then .ok (wrap64 x) else .error .notAWord

/-- The number `n` stands for. -/
def AsmValue.eval (labels : List (List Char × Nat)) : AsmValue → Except AsmError Int
  | .num x => .ok x
  | .label n =>
    match labels.lookup n with
    | some a => .ok (a : Int)
    | none => .error .unknownLabel

/-- The word of the number `x`, where it is known, as a raw parameter of mode `m`. -/
def asmParam (m : Mode) : Except AsmError Int → Except AsmError Param
  | .error e => .error e
  | .ok x =>
    match asmWord x with
    | .error e => .error e
    | .ok w => .ok ⟨m, w⟩

/-- The negative of a number, where it is known. R54 says that `n` is a decimal word; it does not say what becomes of
`[rb-n]` for another `n`, which is refused (DESIGN CHOICE, safe: log 9). -/
def asmNeg : Except AsmError Int → Except AsmError Int
  | .error e => .error e
  | .ok x => if IsWord x then .ok (-x) else .error .notAWord

/-- The mode digit and raw word of an operand (R54): raw `n`, or `-n` for `[rb-n]`. Where R54 gives no raw word the operand
is refused: an `n` outside the range of a word in every form, and in `[rb-n]` the word `n = -2^63` too, whose negative is no
word (DESIGN CHOICE, safe: log 9). -/
def AsmOperand.param (labels : List (List Char × Nat)) : AsmOperand → Except AsmError Param
  | .imm n => asmParam .immediate (n.eval labels)
  | .pos n => asmParam .position (n.eval labels)
  | .relPlus n => asmParam .relative (n.eval labels)
  | .relMinus n => asmParam .relative (asmNeg (n.eval labels))

/-- The results of `f` over a list, or the first refusal. -/
def asmAll {α β : Type} (f : α → Except AsmError β) : List α → Except AsmError (List β)
  | [] => .ok []
  | x :: xs =>
    match f x with
    | .error e => .error e
    | .ok y =>
      match asmAll f xs with
      | .error e => .error e
      | .ok ys => .ok (y :: ys)

/-- The instruction of an opcode with these parameters: the mode digits of absent operands are 0 (R54). -/
def asmInstr (o : Opcode) (ps : List Param) : Instr :=
  let mode := fun k => (ps[k]?.map Param.mode).getD .position
  let d : Decoded := { opcode := o, m1 := mode 0, m2 := mode 1, m3 := mode 2 }
  d.toInstr (fun k => (ps[k - 1]?.map Param.raw).getD 0)

/-- The words of an instruction line (R54): exactly `arity` operands, a write operand in Immediate mode refused. -/
def assembleInstr (labels : List (List Char × Nat)) (op : AsmOp) (operands : List AsmOperand) :
    Except AsmError (List Word) :=
  match expandPseudo op operands with
  | .error e => .error e
  | .ok (o, os) =>
    match asmAll (AsmOperand.param labels) os with
    | .error e => .error e
    | .ok ps =>
      if ps.length = o.arity then
        if (asmInstr o ps).wellFormed then .ok (encode (asmInstr o ps)) else .error .immediateDestination
      else .error .operandCount

/-- The words of one item. -/
def assembleItem (labels : List (List Char × Nat)) : AsmItem → Except AsmError (List Word)
  | .label _ => .ok []
  | .words ws => asmAll asmWord ws
  | .instr op os => assembleInstr labels op os

/-- The words of a source: labels first, then the items in order. -/
def assemble (items : List AsmItem) : Except AsmError (List Word) :=
  let labels := labelTable 0 items
  if (labels.map Prod.fst).Nodup then
    match asmAll (assembleItem labels) items with
    | .error e => .error e
    | .ok wss => .ok wss.flatten
  else .error .duplicateLabel

/-! ## From text to items -/

/-- A name or number (letters, digits, `_`), or one other character. -/
inductive AsmToken where
  | name (cs : List Char)
  | sym  (c : Char)
deriving DecidableEq, Repr

/-- Ends the name read so far, held with its last character first. -/
def flushName (acc : List Char) (ts : List AsmToken) : List AsmToken :=
  if acc = [] then ts else .name acc.reverse :: ts

/-- The tokens of a line; `;` ends it. -/
def tokens : List Char → List Char → List AsmToken
  | acc, [] => flushName acc []
  | acc, c :: cs =>
    if c.isAlphanum || c == '_' then tokens (c :: acc) cs
    else if c == ';' then flushName acc []
    else if c.isWhitespace then flushName acc (tokens [] cs)
    else flushName acc (.sym c :: tokens [] cs)

/-- The value of a name of decimal digits. -/
def decimalValue (cs : List Char) : Option Int :=
  if cs.all Char.isDigit && !cs.isEmpty then some (cs.foldl (fun n c => 10 * n + ((c.toNat : Int) - 48)) 0) else none

/-- `n`: a decimal word, with a sign or without, or a label; with the tokens after it. -/
def parseValue : List AsmToken → Except AsmError (AsmValue × List AsmToken)
  | .sym '-' :: .name cs :: ts =>
    match decimalValue cs with
    | some x => .ok (.num (-x), ts)
    | none => .error .badLine
  | .name cs :: ts =>
    match decimalValue cs with
    | some x => .ok (.num x, ts)
    | none => .ok (.label cs, ts)
  | _ => .error .badLine

/-- The `]` that ends an operand. -/
def closeBracket (f : AsmValue → AsmOperand) : Except AsmError (AsmValue × List AsmToken) →
    Except AsmError (AsmOperand × List AsmToken)
  | .ok (v, .sym ']' :: ts) => .ok (f v, ts)
  | .ok _ => .error .badLine
  | .error e => .error e

/-- One operand (R54). -/
def parseOperand : List AsmToken → Except AsmError (AsmOperand × List AsmToken)
  | .sym '[' :: .name ['r', 'b'] :: .sym '+' :: ts => closeBracket .relPlus (parseValue ts)
  | .sym '[' :: .name ['r', 'b'] :: .sym '-' :: ts => closeBracket .relMinus (parseValue ts)
  | .sym '[' :: ts => closeBracket .pos (parseValue ts)
  | ts =>
    match parseValue ts with
    | .ok (v, rest) => .ok (.imm v, rest)
    | .error e => .error e

/-- A comma-separated list of what `p` reads, of at most `fuel` entries, up to the end of the line. -/
def parseList {α : Type} (p : List AsmToken → Except AsmError (α × List AsmToken)) :
    Nat → List AsmToken → Except AsmError (List α)
  | 0, _ => .error .badLine
  | fuel + 1, ts =>
    match p ts with
    | .ok (x, []) => .ok [x]
    | .ok (x, .sym ',' :: rest) =>
      match parseList p fuel rest with
      | .ok xs => .ok (x :: xs)
      | .error e => .error e
    | .ok _ => .error .badLine
    | .error e => .error e

/-- A number of a `.word` line. -/
def parseNumber (ts : List AsmToken) : Except AsmError (Int × List AsmToken) :=
  match parseValue ts with
  | .ok (.num x, rest) => .ok (x, rest)
  | .ok _ => .error .badLine
  | .error e => .error e

/-- The mnemonics of R44 and R55, case-insensitive (R54). -/
def mnemonicOf (cs : List Char) : Option AsmOp :=
  [(['A', 'D', 'D'], AsmOp.core .add), (['M', 'U', 'L'], .core .mul), (['I', 'N'], .core .inp),
    (['O', 'U', 'T'], .core .out), (['J', 'N', 'Z'], .core .jnz), (['J', 'Z'], .core .jz), (['L', 'T'], .core .lt),
    (['E', 'Q'], .core .eq), (['A', 'R', 'B'], .core .arb), (['H', 'A', 'L', 'T'], .core .halt),
    (['J', 'M', 'P'], .jmp), (['N', 'O', 'P'], .nop), (['M', 'O', 'V'], .mov)].lookup (cs.map Char.toUpper)

/-- What stands after a line's label: nothing, `.word` with its numbers, or an instruction. -/
def parseBody : List AsmToken → Except AsmError (List AsmItem)
  | [] => .ok []
  | .sym '.' :: .name ['w', 'o', 'r', 'd'] :: ts =>
    match parseList parseNumber (ts.length + 1) ts with
    | .ok ws => .ok [.words ws]
    | .error e => .error e
  | .name m :: ts =>
    match mnemonicOf m with
    | none => .error .unknownMnemonic
    | some op =>
      match ts with
      | [] => .ok [.instr op []]
      | t :: ts =>
        match parseList parseOperand (ts.length + 2) (t :: ts) with
        | .ok os => .ok [.instr op os]
        | .error e => .error e
  | _ => .error .badLine

/-- The items of a line: `label:` may stand before the rest. -/
def parseLine (ts : List AsmToken) : Except AsmError (List AsmItem) :=
  match ts with
  | .name n :: .sym ':' :: rest =>
    match decimalValue n, parseBody rest with
    | some _, _ => .error .badLine
    | none, .ok is => .ok (.label n :: is)
    | none, .error e => .error e
  | ts => parseBody ts

/-- Splits a text at its line ends; the line read so far is held with its last character first. -/
def splitLines : List Char → List Char → List (List Char)
  | acc, [] => [acc.reverse]
  | acc, c :: cs => if c == '\n' then acc.reverse :: splitLines [] cs else splitLines (c :: acc) cs

/-- The words of a source text (R54, R55). -/
def assembleText (text : List Char) : Except AsmError (List Word) :=
  match asmAll (fun l => parseLine (tokens [] l)) (splitLines [] text) with
  | .error e => .error e
  | .ok items => assemble items.flatten

end Sys2Proof.Machine
end

