-- ==== Sys2Proof/Machine/HostCommands.lean ====
section
/-! DEFINITION. The host interface (60_exceptions.md section 4): the commands of R99 on one instance, the status view
(R20), and several instances side by side (R104). A command is a function of the state, so none overlaps a step (R38). -/

namespace Sys2Proof.Machine

/-! ## LOAD -/

/-- The state after LOAD of the program `P` (R107, R25), for a `P` that fits: nothing of an earlier state survives but the
block's parameters, which are not state. -/
def loaded (params : Params) (P : List Word) : State :=
  { ip := 0, rb := 0, mem := Memory.ofWords 0 P, len := P.length, iq := [], ob := [], st := .running, fr := none,
    params := params }

/-- LOAD (R107): `none` where the host interface refuses a program longer than `MEM_CAPACITY`. -/
def load (params : Params) (P : List Word) : Option State :=
  if P.length ≤ params.memCapacity then some (loaded params P) else none

/-! ## ADD_INPUT, GET_OUTPUT, POP_OUTPUT, GET_UNUSED_INPUT, READ_MEMORY -/

/-- ADD_INPUT(v) (R100): appends at the back of `IQ`, in every status. -/
def addInput (v : Word) (s : State) : State := { s with iq := s.iq ++ [v] }

/-- GET_OUTPUT (R101). -/
def getOutput (s : State) : List Word := s.ob

/-- POP_OUTPUT (R101): returns `OB` and empties it. -/
def popOutput (s : State) : List Word × State := (s.ob, { s with ob := [] })

/-- GET_UNUSED_INPUT (R102): `IQ`, front first. -/
def getUnusedInput (s : State) : List Word := s.iq

/-- READ_MEMORY (R103): `[M[0], .., M[LEN-1]]`. -/
def readMemory (s : State) : List Word := (List.range s.len).map s.mem.read

/-! ## RUN -/

/-- What a RUN returns (R64). `fatal` carries `FR` (R65), which holds a record whenever `ST = FAULTED`. -/
inductive RunResult where
  | ok
  | blockedOnInput (ip : Pointer)
  | fatal (fr : Option FaultRecord)
deriving DecidableEq, Repr

/-- The result of the RUN that a state ends (R65); `none` while `ST = RUNNING`, where the RUN goes on. -/
def runResult (s : State) : Option RunResult :=
  match s.st with
  | .running => none
  | .halted => some .ok
  | .blocked => some (.blockedOnInput s.ip)
  | .faulted => some (.fatal s.fr)

/-- The loop of RUN (R65) for at most `fuel` steps. `none` means "not yet returned", which is no result of the core
(R69, U8). -/
def runLoop : Nat → State → Option (RunResult × State)
  | 0, _ => none
  | fuel + 1, s =>
    match step s with
    | .next t =>
      match runResult t with
      | some r => some (r, t)
      | none => runLoop fuel t
    | .fault _ => none
    | .refused _ => none

/-- RUN (R65) for at most `fuel` steps: at once on a halted (R66) or faulted (R68) instance; a blocked one is resumed
(R67). -/
def run (fuel : Nat) (s : State) : Option (RunResult × State) :=
  match s.st with
  | .halted => some (.ok, s)
  | .faulted => some (.fatal s.fr, s)
  | .blocked => runLoop fuel (resume s)
  | .running => runLoop fuel s

/-- A RUN on `s` returns `r` and leaves `t`. -/
def RunReturns (s : State) (r : RunResult) (t : State) : Prop := ∃ fuel, run fuel s = some (r, t)

/-! ## The status view -/

/-- The code of `ST` (R20). -/
def Status.code : Status → BitVec 2
  | .running => 0
  | .halted => 1
  | .blocked => 2
  | .faulted => 3

/-- The code of a fault kind (R85). -/
def FaultKind.code : FaultKind → BitVec 3
  | .illegalOpcode => 1
  | .invalidParameterMode => 2
  | .negativeAddress => 3
  | .writeToImmediate => 4
  | .arithmeticOverflow => 5
  | .memoryCapacityExceeded => 6

/-- The host-readable status view (R20). -/
structure StatusView where
  status     : BitVec 2
  blockedIp  : Option Pointer
  faultKind  : BitVec 3
  faultIp    : Pointer
  faultValue : Word
deriving DecidableEq, Repr

/-- The status view of a state (R20). `blocked_ip` is valid only when `status = 2`; its reset value is 0, and the host sees
`RUNNING` only after LOAD and before the first RUN (R106). When `status` is 1 or 3 it is `none`: the field is not valid and
the model gives it no number (DESIGN CHOICE, safe: log 7). -/
def statusView (s : State) : StatusView :=
  { status := s.st.code
    blockedIp :=
      match s.st with
      | .blocked => some s.ip
      | .running => some 0
      | .halted | .faulted => none
    faultKind :=
      match s.fr with
      | some r => r.kind.code
      | none => 0
    faultIp :=
      match s.fr with
      | some r => r.ip
      | none => 0
    faultValue :=
      match s.fr with
      | some r => r.value.getD 0
      | none => 0 }

/-! ## The commands as data, and several instances -/

/-- The host commands (R99). -/
inductive HostCommand where
  | load (params : Params) (P : List Word)
  | addInput (v : Word)
  | run
  | getOutput
  | popOutput
  | getUnusedInput
  | readMemory
  | discard
deriving DecidableEq, Repr

/-- What a command returns (R99). -/
inductive HostReply where
  | nothing
  | loadRefused             -- LOAD of a program longer than MEM_CAPACITY (R107)
  | runResult (r : RunResult)
  | words (ws : List Word)
  | noInstance              -- there is no instance to command: before the first LOAD or after DISCARD
deriving DecidableEq, Repr

/-- The parameters a LOAD uses: an existing instance keeps its own, which no host command changes (R22); a new one has
those it is created with. -/
def loadParams (inst : Option State) (params : Params) : Params :=
  match inst with
  | some s => s.params
  | none => params

/-- One host command on an instance that may not exist yet (R99). `none` means that a RUN has not returned within `fuel`
steps. A refused LOAD leaves an existing instance unchanged and creates none (R107). DISCARD ends the instance. -/
def hostCommand (fuel : Nat) (c : HostCommand) (inst : Option State) : Option (HostReply × Option State) :=
  match c, inst with
  | .load params P, inst =>
    match load (loadParams inst params) P with
    | some t => some (.nothing, some t)
    | none => some (.loadRefused, inst)
  | .addInput v, some s => some (.nothing, some (addInput v s))
  | .run, some s => (run fuel s).map (fun rt => (.runResult rt.1, some rt.2))
  | .getOutput, some s => some (.words (getOutput s), some s)
  | .popOutput, some s => some (.words (popOutput s).1, some (popOutput s).2)
  | .getUnusedInput, some s => some (.words (getUnusedInput s), some s)
  | .readMemory, some s => some (.words (readMemory s), some s)
  | .discard, some _ => some (.nothing, none)
  | .addInput _, none => some (.noInstance, none)
  | .run, none => some (.noInstance, none)
  | .getOutput, none => some (.noInstance, none)
  | .popOutput, none => some (.noInstance, none)
  | .getUnusedInput, none => some (.noInstance, none)
  | .readMemory, none => some (.noInstance, none)
  | .discard, none => some (.noInstance, none)

/-- Several instances (R104), each with its own state and none sharing any (R23, R41). Every natural number is a place; the
place is the host's name for the instance there, and no program can read it (log 12). -/
abbrev Instances := List (Option State)

/-- The instance at place `k`, where there is one. -/
def instanceAt (insts : Instances) (k : Nat) : Option State := insts.getD k none

/-- The instances with `inst` at place `k`; the list grows where a new instance needs it to. -/
def setInstance : Instances → Nat → Option State → Instances
  | [], _, none => []
  | [], 0, some s => [some s]
  | [], k + 1, some s => none :: setInstance [] k (some s)
  | _ :: insts, 0, inst => inst :: insts
  | i :: insts, k + 1, inst => i :: setInstance insts k inst

/-- A host command to the instance at place `k`. A LOAD where there is no instance creates one (R107), at any place, so
any number may exist (R104). -/
def commandAt (fuel : Nat) (k : Nat) (c : HostCommand) (insts : Instances) : Option (HostReply × Instances) :=
  match hostCommand fuel c (instanceAt insts k) with
  | some (r, inst) => some (r, setInstance insts k inst)
  | none => none

end Sys2Proof.Machine
end

