-- ==== Sys2Proof/Safety.lean ====
section
/-! DEFINITION. The terms statements use, written from the rules in exact integers and apart from the machine's own
functions: the effective address, value and fault of an operand (R56 to R58), the first fault of an instruction (R94), the
invariant of every reachable state, and which part of a state a claim may read (U1). -/

namespace Sys2Proof.Safety

open Sys2Proof.Machine

/-! ## Operands, in exact integers -/

/-- `wrap64(x)` of R5 as an integer: `((x + 2^63) mod 2^64) - 2^63`. -/
def wrapInt (x : Int) : Int := (x + 2 ^ 63) % 2 ^ 64 - 2 ^ 63

/-- The value of an exact result once the overflow policy has let it pass: itself where it fits, else wrapped (R71). -/
def policyValue (x : Int) : Int := if IsWord x then x else wrapInt x

/-- The effective address of a Position or Relative parameter (R56 to R58): the raw word, or `RB + raw`, wrapped where it
does not fit (which only `OVERFLOW_POLICY = Wrap` lets happen, see `operandFault`). For an Immediate parameter it means
nothing. -/
def address (s : State) (p : Param) : Int :=
  match p.mode with
  | .relative => policyValue (s.rb.toInt + p.raw.toInt)
  | .position | .immediate => p.raw.toInt

/-- Whether an exact integer overflows and the policy says that this faults (R71, R90). -/
def overflows (s : State) (x : Int) : Bool := decide (¬ IsWord x) && decide (s.params.overflowPolicy = .fault)

/-- The first fault of resolving one operand, in the order of R94 step 3; `write` says whether it is a write operand. -/
def operandFault (s : State) (write : Bool) (p : Param) : Option FaultKind :=
  if p.mode = .immediate then
    if write then some .writeToImmediate else none
  else if p.mode = .relative ∧ overflows s (s.rb.toInt + p.raw.toInt) = true then some .arithmeticOverflow
  else if address s p < 0 then some .negativeAddress
  else if write = true ∧ (s.params.memCapacity : Int) ≤ address s p then some .memoryCapacityExceeded
  else none

/-- The value of a read operand (R56), where resolving it raises no fault. -/
def value (s : State) (p : Param) : Word :=
  match p.mode with
  | .immediate => p.raw
  | .position | .relative => memRead s (address s p).toNat

/-- The tape length after a read operand is resolved with the tape length `L` before (R30). -/
def lenAfterRead (s : State) (p : Param) (L : Nat) : Nat :=
  if p.mode = .immediate then L
  else if s.params.readExtends = true ∧ address s p < s.params.memCapacity then max L ((address s p).toNat + 1)
  else L

/-! ## The first fault of an instruction (R94 steps 3 and 5) -/

/-- The overflow of an exact result, as a fault. -/
def overflowFault (s : State) (x : Int) : Option FaultKind :=
  if overflows s x then some .arithmeticOverflow else none

/-- The first fault of the operands of ADD, MUL, LT and EQ. -/
def binaryFault (s : State) (a b c : Param) : Option FaultKind :=
  (operandFault s false a).or ((operandFault s false b).or (operandFault s true c))

/-- The first fault of a jump: its operands, then a taken jump to a negative target. -/
def jumpFault (s : State) (taken : Bool) (a b : Param) : Option FaultKind :=
  (operandFault s false a).or ((operandFault s false b).or
    (if taken = true ∧ (value s b).toInt < 0 then some .negativeAddress else none))

/-- The first fault an instruction raises when it is executed, if it raises one (R94 steps 3 and 5; steps 1 and 2 are the
decoder's, R47). -/
def firstFault (i : Instr) (s : State) : Option FaultKind :=
  match i with
  | .add a b c => (binaryFault s a b c).or (overflowFault s ((value s a).toInt + (value s b).toInt))
  | .mul a b c => (binaryFault s a b c).or (overflowFault s ((value s a).toInt * (value s b).toInt))
  | .lt a b c => binaryFault s a b c
  | .eq a b c => binaryFault s a b c
  | .inp a _ _ => operandFault s true a
  | .out a _ _ => operandFault s false a
  | .arb a _ _ => (operandFault s false a).or (overflowFault s (s.rb.toInt + (value s a).toInt))
  | .jnz a b _ => jumpFault s (decide (value s a ≠ 0)) a b
  | .jz a b _ => jumpFault s (decide (value s a = 0)) a b
  | .halt _ _ _ => none

/-! ## Parts of an instruction -/

/-- The parameters an instruction has, the first first (R42). -/
def operandsOf : Instr → List Param
  | .add a b c | .mul a b c | .lt a b c | .eq a b c => [a, b, c]
  | .jnz a b _ | .jz a b _ => [a, b]
  | .inp a _ _ | .out a _ _ | .arb a _ _ => [a]
  | .halt _ _ _ => []

/-- The modes of the parameters an instruction's opcode does not have (R49). -/
def absentModes : Instr → List Mode
  | .add _ _ _ | .mul _ _ _ | .lt _ _ _ | .eq _ _ _ => []
  | .jnz _ _ m3 | .jz _ _ m3 => [m3]
  | .inp _ m2 m3 | .out _ m2 m3 | .arb _ m2 m3 => [m2, m3]
  | .halt m1 m2 m3 => [m1, m2, m3]

/-! ## The invariant -/

/-- Every listed word lies below the tape length, so every word at or above it is 0 (R13). -/
def TapeBounded (s : State) : Prop := ∀ c ∈ s.mem, c.1 < s.len

/-- A fault record carries a value exactly for the kinds R18 says. -/
def RecordShape (r : FaultRecord) : Prop :=
  r.value.isSome = true ↔ r.kind = .illegalOpcode ∨ r.kind = .invalidParameterMode

/-- What holds of every state between two steps or host commands. Each clause is the range or relation of a rule, so the
state after a fault (U1: any value) has values within it too. -/
structure Invariant (s : State) : Prop where
  /-- The parameters are in range (R4). -/
  params   : s.params.Valid
  /-- The memory is in canonical form. -/
  mem      : s.mem.wf = true
  /-- Words at or above `LEN` are 0 (R13). -/
  tape     : TapeBounded s
  /-- `LEN <= MEM_CAPACITY` (R14). -/
  len      : s.len ≤ s.params.memCapacity
  /-- `IP` never exceeds `2^63 + 3` (R63). -/
  ip       : s.ip.toNat ≤ 2 ^ 63 + 3
  /-- `FR` holds a record exactly when the instance is faulted (R17, R18). -/
  fault    : s.fr.isSome = true ↔ s.st = .faulted
  /-- The record has the shape of R18. -/
  record   : ∀ r, s.fr = some r → RecordShape r
  /-- A blocked instance's `IP` addresses an IN (R21). -/
  blocked  : s.st = .blocked → ∃ a m2 m3, fetch s = .ok (.inp a m2 m3)

/-! ## What a claim may read -/

/-- Two states agree in all that a claim may read (U1, R62): after a fault only `ST` and `FR`, otherwise everything. -/
def Agree (s t : State) : Prop := s.st = t.st ∧ s.fr = t.fr ∧ (s.st ≠ .faulted → s = t)

/-- ADD_INPUT of several words, the first first. -/
def addInputs (ws : List Word) (s : State) : State := { s with iq := s.iq ++ ws }

end Sys2Proof.Safety
end

