-- ==== Sys2Proof/Certificates/Slice0/Obligations.lean ====
section
/-! DEFINITION. The statements for the provers. "First fault", "value", "address" and "lenAfterRead" are Safety.lean's, written
in exact integers from R30, R56 to R58 and R94. A statement reads nothing of a state after a fault but its status and its
fault record (U1), save for the three cases log 4 names (the invariant among them, whose clauses are ranges of the rules).
What the spec marks as its own decision (D<n>) or derivation is named in the docstring of the statement that rests on it; such a statement is 'derived'.
The opcode values 2, 5, 6, 7, 9 and the mode digits 1, 2 rest on D2 and D3 (log 5) wherever a statement decodes a word. -/

open Sys2Proof Sys2Proof.Machine Sys2Proof.Safety

/-! ## Encoding and decoding -/

/-- One instruction of every family, its words written out from R42 to R45, decodes to what it stands for
(95_test_vectors.md 2.1; values and digits: D2, D3). -/
def Obligations.SpecWordsDecode : Prop :=
  decodeWords [1, 9, 10, 3] = .ok (.add ⟨.position, 9⟩ ⟨.position, 10⟩ ⟨.position, 3⟩) ∧
  decodeWords [1002, 4, 3, 4] = .ok (.mul ⟨.position, 4⟩ ⟨.immediate, 3⟩ ⟨.position, 4⟩) ∧
  decodeWords [3, 9] = .ok (.inp ⟨.position, 9⟩ .position .position) ∧
  decodeWords [204, -3] = .ok (.out ⟨.relative, -3⟩ .position .position) ∧
  decodeWords [1105, 1, 7] = .ok (.jnz ⟨.immediate, 1⟩ ⟨.immediate, 7⟩ .position) ∧
  decodeWords [1006, 32, 24] = .ok (.jz ⟨.position, 32⟩ ⟨.immediate, 24⟩ .position) ∧
  decodeWords [107, 0, 30, 32] = .ok (.lt ⟨.immediate, 0⟩ ⟨.position, 30⟩ ⟨.position, 32⟩) ∧
  decodeWords [22208, 5, 6, 7] = .ok (.eq ⟨.relative, 5⟩ ⟨.relative, 6⟩ ⟨.relative, 7⟩) ∧
  decodeWords [2209, 6] = .ok (.arb ⟨.relative, 6⟩ .relative .position) ∧
  decodeWords [1199] = .ok (.halt .immediate .immediate .position)

/-- The twelve illegal words of vectors D-10 to D-21, in their order, are refused by name, with the word or the digit; and so
is 5301, worked out by hand (the negative word and the high digits: D4, D5; the digits of absent parameters: D6; the order
of checks: D7). -/
def Obligations.SpecWordsRefused : Prop :=
  decodeOpcodeWord 0 = .error (.illegalOpcode 0) ∧
  decodeOpcodeWord 10 = .error (.illegalOpcode 10) ∧
  decodeOpcodeWord 98 = .error (.illegalOpcode 98) ∧
  decodeOpcodeWord 100 = .error (.illegalOpcode 100) ∧
  decodeOpcodeWord (-1) = .error (.illegalOpcode (-1)) ∧
  decodeOpcodeWord (-99) = .error (.illegalOpcode (-99)) ∧
  decodeOpcodeWord 100001 = .error (.illegalOpcode 100001) ∧
  decodeOpcodeWord 9223372036854775807 = .error (.illegalOpcode 9223372036854775807) ∧
  decodeOpcodeWord 301 = .error (.invalidParameterMode 3) ∧
  decodeOpcodeWord 90004 = .error (.invalidParameterMode 9) ∧
  decodeOpcodeWord 30099 = .error (.invalidParameterMode 3) ∧
  decodeOpcodeWord 3301 = .error (.invalidParameterMode 3) ∧
  decodeOpcodeWord 5301 = .error (.invalidParameterMode 3)

/-- Decoding the words of any instruction, whatever words follow them, gives the instruction back, with every operand at
every value (R52, which the spec derives). -/
def Obligations.DecodeOfEncode : Prop :=
  ∀ (i : Instr) (rest : List Word), decodeWords (encode i ++ rest) = .ok i

/-- A word that decodes is the encoding of what it decodes to, and lies in [1, 22299]: each legal word has one meaning
(R52, which the spec derives). -/
def Obligations.EncodeOfDecode : Prop :=
  ∀ (w : Word) (d : Decoded), decodeOpcodeWord w = .ok d →
    encodeOpcode d.opcode d.m1 d.m2 d.m3 = w ∧ 1 ≤ w.toInt ∧ w.toInt ≤ 22299

/-- A word decodes exactly when it is not negative, has no digit above the third mode digit, its low two digits are one of
the ten opcodes and its three mode digits are 0, 1 or 2 (R47, R48; the sign: D4, the high digits: D5, the digits of absent
parameters: D6). -/
def Obligations.LegalWordsExactly : Prop :=
  ∀ w : Word, (∃ d, decodeOpcodeWord w = .ok d) ↔
    0 ≤ w.toInt ∧ w.toInt < 100000 ∧ w.toInt % 100 ∈ ([1, 2, 3, 4, 5, 6, 7, 8, 9, 99] : List Int) ∧
    ∀ j ∈ [2, 3, 4], w.toInt / 10 ^ j % 10 ≤ 2

/-- What the decoder refuses, and with what: IllegalOpcode with the word itself exactly for a negative word, an unknown
opcode or a word of 100000 or more; otherwise InvalidParameterMode with the first digit above 2, parameter 1 first (R48,
R86, R87; D4, D5, D6; the order: D7). -/
def Obligations.IllegalWordsExactly : Prop :=
  (∀ w v : Word, decodeOpcodeWord w = .error (.illegalOpcode v) ↔
    v = w ∧ (w.toInt < 0 ∨ 100000 ≤ w.toInt ∨
      w.toInt % 100 ∉ ([1, 2, 3, 4, 5, 6, 7, 8, 9, 99] : List Int))) ∧
  (∀ (w : Word) (d : Nat), decodeOpcodeWord w = .error (.invalidParameterMode d) ↔
    0 ≤ w.toInt ∧ w.toInt < 100000 ∧ w.toInt % 100 ∈ ([1, 2, 3, 4, 5, 6, 7, 8, 9, 99] : List Int) ∧
    ∃ j ∈ [2, 3, 4], (d : Int) = w.toInt / 10 ^ j % 10 ∧ 3 ≤ d ∧ ∀ k ∈ [2, 3, 4], k < j → w.toInt / 10 ^ k % 10 ≤ 2)

/-! ## Memory -/

/-- `MemWrite`: the written word reads back, every other address reads as before (so the new words are 0), the tape
lengthens to hold the address and never shrinks, the canonical form is kept, nothing else changes; and a fetch sees the write
at once (R28, R29, R40; R40 is the spec's derivation). -/
def Obligations.MemWriteStoresAndExtends : Prop :=
  ∀ (s : State) (a : Nat) (v : Word),
    (∀ b, memRead (memWrite a v s) b = if b = a then v else memRead s b) ∧
    (memWrite a v s).len = max s.len (a + 1) ∧
    memWrite a v s = { s with mem := (memWrite a v s).mem, len := (memWrite a v s).len } ∧
    (s.mem.wf = true → (memWrite a v s).mem.wf = true) ∧
    (∀ k, s.ip.toNat + k = a → fetchWord (memWrite a v s) k = v)

/-- The tape never shrinks: no instruction, no resolver operation and no host command but LOAD decreases `LEN` (R31; after a
fault `LEN` is not read, U1). -/
def Obligations.TapeNeverShrinks : Prop :=
  (∀ (i : Instr) (s t : State), exec i s = .next t → t.st ≠ .faulted → s.len ≤ t.len) ∧
  (∀ (p : Param) (s t : State) (v : Word), readOperand p s = .ok v t → s.len ≤ t.len) ∧
  (∀ (fuel : Nat) (c : HostCommand) (s t : State) (r : HostReply), (∀ params P, c ≠ .load params P) →
    hostCommand fuel c (some s) = some (r, some t) → t.st ≠ .faulted → s.len ≤ t.len)

/-! ## The operand resolver -/

/-- `ReadOperand` in every mode: the first fault of R94 step 3 with no change of state, or the operand's value, with no
change but the tape length that READ_EXTENDS gives (R56, R58, R30; a negative Relative address: C2, overflow: D10, read
extension: D13). -/
def Obligations.ReadOperandByMode : Prop :=
  ∀ (s : State) (p : Param),
    (∀ k, operandFault s false p = some k → ∃ c, c.kind = k ∧ c.value = none ∧ readOperand p s = .fault c s) ∧
    (operandFault s false p = none → ∃ t, readOperand p s = .ok (value s p) t ∧
      t = { s with mem := t.mem, len := lenAfterRead s p s.len } ∧ ∀ n, memRead t n = memRead s n)

/-- `WriteAddr` in every mode: the first fault of R94 step 3, or the effective address, which is below MEM_CAPACITY
(R57, R58; overflow: D10, capacity: D12). -/
def Obligations.WriteAddrByMode : Prop :=
  ∀ (s : State) (p : Param),
    (∀ k, operandFault s true p = some k → ∃ c, c.kind = k ∧ c.value = none ∧ writeAddr p s = .error c) ∧
    (operandFault s true p = none → writeAddr p s = .ok (address s p).toNat ∧
      0 ≤ address s p ∧ address s p < s.params.memCapacity)

/-! ## What each instruction does: completion and result -/

/-- ADD (R72) whenever it raises no fault: the sum (exact, or wrapped where the policy allows that: D10) is stored at `c`,
`IP` advances by 4, the tape holds `c`, nothing else changes. -/
def Obligations.AddResult : Prop :=
  ∀ (s : State) (a b c : Param), firstFault (.add a b c) s = none →
    ∃ t, exec (.add a b c) s = .next t ∧
      (memRead t (address s c).toNat).toInt = policyValue ((value s a).toInt + (value s b).toInt) ∧
      (∀ n, n ≠ (address s c).toNat → memRead t n = memRead s n) ∧
      t = { s with
        ip := s.ip + 4, mem := t.mem
        len := max (lenAfterRead s b (lenAfterRead s a s.len)) ((address s c).toNat + 1) }

/-- MUL (R73) whenever it raises no fault: the product is stored at `c`; the rest as ADD (D10). -/
def Obligations.MulResult : Prop :=
  ∀ (s : State) (a b c : Param), firstFault (.mul a b c) s = none →
    ∃ t, exec (.mul a b c) s = .next t ∧
      (memRead t (address s c).toNat).toInt = policyValue ((value s a).toInt * (value s b).toInt) ∧
      (∀ n, n ≠ (address s c).toNat → memRead t n = memRead s n) ∧
      t = { s with
        ip := s.ip + 4, mem := t.mem
        len := max (lenAfterRead s b (lenAfterRead s a s.len)) ((address s c).toNat + 1) }

/-- LT (R74) whenever it raises no fault: 1 is stored at `c` if `a < b` as signed numbers, else 0. -/
def Obligations.LessThanResult : Prop :=
  ∀ (s : State) (a b c : Param), firstFault (.lt a b c) s = none →
    ∃ t, exec (.lt a b c) s = .next t ∧
      memRead t (address s c).toNat = (if (value s a).toInt < (value s b).toInt then 1 else 0) ∧
      (∀ n, n ≠ (address s c).toNat → memRead t n = memRead s n) ∧
      t = { s with
        ip := s.ip + 4, mem := t.mem
        len := max (lenAfterRead s b (lenAfterRead s a s.len)) ((address s c).toNat + 1) }

/-- EQ (R75) whenever it raises no fault: 1 is stored at `c` if `a = b`, else 0. -/
def Obligations.EqualResult : Prop :=
  ∀ (s : State) (a b c : Param), firstFault (.eq a b c) s = none →
    ∃ t, exec (.eq a b c) s = .next t ∧
      memRead t (address s c).toNat = (if value s a = value s b then 1 else 0) ∧
      (∀ n, n ≠ (address s c).toNat → memRead t n = memRead s n) ∧
      t = { s with
        ip := s.ip + 4, mem := t.mem
        len := max (lenAfterRead s b (lenAfterRead s a s.len)) ((address s c).toNat + 1) }

/-- ARB (R76) whenever it raises no fault: `RB` becomes the old `RB` plus the operand, which a Relative mode reads with the
old `RB` (D10); `IP` advances by 2; every word of memory reads as before. -/
def Obligations.AdjustRelativeBaseResult : Prop :=
  ∀ (s : State) (a : Param) (m2 m3 : Mode), firstFault (.arb a m2 m3) s = none →
    ∃ t, exec (.arb a m2 m3) s = .next t ∧
      t.rb.toInt = policyValue (s.rb.toInt + (value s a).toInt) ∧
      (∀ n, memRead t n = memRead s n) ∧
      t = { s with ip := s.ip + 2, rb := t.rb, mem := t.mem, len := lenAfterRead s a s.len }

/-- IN (R78) with a good write operand and input waiting: the front of `IQ` is removed and stored at `a`, `IP` advances
by 2. -/
def Obligations.InputResult : Prop :=
  ∀ (s : State) (a : Param) (m2 m3 : Mode) (v : Word) (rest : List Word),
    firstFault (.inp a m2 m3) s = none → s.iq = v :: rest →
    ∃ t, exec (.inp a m2 m3) s = .next t ∧
      memRead t (address s a).toNat = v ∧
      (∀ n, n ≠ (address s a).toNat → memRead t n = memRead s n) ∧
      t = { s with
        ip := s.ip + 2, iq := rest, mem := t.mem, len := max s.len ((address s a).toNat + 1) }

/-- IN (R78) with a good write operand and an empty `IQ` blocks: `ST <- BLOCKED` and no other effect at all. -/
def Obligations.InputBlocks : Prop :=
  ∀ (s : State) (a : Param) (m2 m3 : Mode), firstFault (.inp a m2 m3) s = none → s.iq = [] →
    exec (.inp a m2 m3) s = .next { s with st := .blocked }

/-- OUT (R79) whenever it raises no fault: the operand is appended to `OB`, `IP` advances by 2, every word of memory reads as
before (it never blocks: D18). -/
def Obligations.OutputResult : Prop :=
  ∀ (s : State) (a : Param) (m2 m3 : Mode), firstFault (.out a m2 m3) s = none →
    ∃ t, exec (.out a m2 m3) s = .next t ∧ (∀ n, memRead t n = memRead s n) ∧
      t = { s with
        ip := s.ip + 2, ob := s.ob ++ [value s a], mem := t.mem, len := lenAfterRead s a s.len }

/-- JNZ (R81) whenever it raises no fault: `IP` becomes the value of `b` if the value of `a` is not 0, else advances by 3;
every word of memory reads as before (the fault of a taken negative target: D14). -/
def Obligations.JumpNonzeroResult : Prop :=
  ∀ (s : State) (a b : Param) (m3 : Mode), firstFault (.jnz a b m3) s = none →
    ∃ t, exec (.jnz a b m3) s = .next t ∧ (∀ n, memRead t n = memRead s n) ∧
      t = { s with
        ip := if value s a = 0 then s.ip + 3 else value s b
        mem := t.mem, len := lenAfterRead s b (lenAfterRead s a s.len) }

/-- JZ (R82) whenever it raises no fault: `IP` becomes the value of `b` if the value of `a` is 0, else advances by 3 (D14). -/
def Obligations.JumpZeroResult : Prop :=
  ∀ (s : State) (a b : Param) (m3 : Mode), firstFault (.jz a b m3) s = none →
    ∃ t, exec (.jz a b m3) s = .next t ∧ (∀ n, memRead t n = memRead s n) ∧
      t = { s with
        ip := if value s a = 0 then value s b else s.ip + 3
        mem := t.mem, len := lenAfterRead s b (lenAfterRead s a s.len) }

/-- HALT (R83), always: `ST <- HALTED`, `IP` advances by 1 (D15), nothing else changes, whatever its three mode digits. -/
def Obligations.HaltResult : Prop :=
  ∀ (s : State) (m1 m2 m3 : Mode),
    exec (.halt m1 m2 m3) s = .next { s with st := .halted, ip := s.ip + 1 }

/-! ## Faults -/

/-- Every instruction that has a first fault in the order of R94 takes it: a next state with `ST = FAULTED` and `FR` that
kind with the address of the instruction's opcode word and no value (R85, R88 to R91, R93; the order: D8, D9; overflow:
D10; capacity: D12; jump target: D14; the ip: D28). -/
def Obligations.FirstFaultIsTaken : Prop :=
  ∀ (i : Instr) (s : State) (k : FaultKind), firstFault i s = some k →
    ∃ t, exec i s = .next t ∧ t.st = .faulted ∧ t.fr = some { kind := k, ip := s.ip, value := none }

/-- An instruction with no first fault raises none: it completes, halts or blocks, with `FR` unchanged (R60, R92). -/
def Obligations.NoFaultWithoutCause : Prop :=
  ∀ (i : Instr) (s : State), s.st = .running → firstFault i s = none →
    ∃ t, exec i s = .next t ∧ t.st ≠ .faulted ∧ t.fr = s.fr

/-- A step whose opcode word is illegal takes the decoder's fault, with the fetch address and the raw word or the digit
(R86, R87, R93; D28). -/
def Obligations.DecodeFaultIsTaken : Prop :=
  ∀ (s : State) (e : DecodeError), s.st = .running → fetch s = .error e →
    ∃ t, step s = .next t ∧ t.st = .faulted ∧
      (∀ w, e = .illegalOpcode w →
        w = memRead s s.ip.toNat ∧ t.fr = some { kind := .illegalOpcode, ip := s.ip, value := some w }) ∧
      (∀ d, e = .invalidParameterMode d →
        3 ≤ d ∧ d ≤ 9 ∧ t.fr = some { kind := .invalidParameterMode, ip := s.ip, value := some (BitVec.ofNat 64 d) })

/-- Running off the end: a step at or beyond the tape length fetches 0 and raises IllegalOpcode(IP, 0) (R63, R86; the spec
derives R63). -/
def Obligations.RunningOffTheEndFaults : Prop :=
  ∀ s : State, s.st = .running → s.len ≤ s.ip.toNat →
    ∃ t, step s = .next t ∧ t.st = .faulted ∧
      t.fr = some { kind := .illegalOpcode, ip := s.ip, value := some 0 }

/-- Under `Wrap` ArithmeticOverflow is never raised (R90; D10), and with the reference capacity MemoryCapacityExceeded is
never raised (R91; D12). -/
def Obligations.PolicyFaultsOnlyUnderTheirPolicy : Prop :=
  ∀ s t : State, s.st = .running → step s = .next t → ∀ r, t.fr = some r → t.st = .faulted →
    (r.kind = .arithmeticOverflow → s.params.overflowPolicy = .fault) ∧
    (r.kind = .memoryCapacityExceeded → s.params.memCapacity < 2 ^ 63)

/-! ## Frames -/

/-- Frame of ADD, MUL, LT, EQ: when the next state is not faulted, nothing changes but `IP`, the word at the address
`writeAddr` gives for `c`, and the tape length, which is unchanged below that address unless READ_EXTENDS. -/
def Obligations.StoringAluFrame : Prop :=
  ∀ (i : Instr) (a b c : Param) (s t : State),
    i = .add a b c ∨ i = .mul a b c ∨ i = .lt a b c ∨ i = .eq a b c →
    exec i s = .next t → t.st ≠ .faulted →
    t = { s with ip := t.ip, mem := t.mem, len := t.len } ∧
    ∃ d, writeAddr c s = .ok d ∧ (∀ n, n ≠ d → memRead t n = memRead s n) ∧
      (s.params.readExtends = false → d < s.len → t.len = s.len)

/-- Frame of IN: when the next state is not faulted, nothing changes but `IP`, the front of `IQ`, the status (when it
blocks), the word at the address `writeAddr` gives for `a`, and the tape length. -/
def Obligations.InputFrame : Prop :=
  ∀ (a : Param) (m2 m3 : Mode) (s t : State),
    exec (.inp a m2 m3) s = .next t → t.st ≠ .faulted →
    t = { s with ip := t.ip, iq := t.iq, st := t.st, mem := t.mem, len := t.len } ∧
    (t.iq = s.iq ∨ t.iq = s.iq.tail) ∧ (t.st = s.st ∨ t.st = .blocked) ∧
    ∃ d, writeAddr a s = .ok d ∧ (∀ n, n ≠ d → memRead t n = memRead s n) ∧ (d < s.len → t.len = s.len)

/-- Frame of the instructions that store nothing (OUT, JNZ, JZ, ARB, HALT): when the next state is not faulted, every word of
memory reads as before, the tape length is unchanged unless READ_EXTENDS, and nothing else changes but `IP`, `RB` by ARB,
`OB` by OUT and `ST` by HALT. -/
def Obligations.NonStoringFrame : Prop :=
  ∀ (i : Instr) (s t : State), i.writeOperand = none →
    exec i s = .next t → t.st ≠ .faulted →
    (∀ n, memRead t n = memRead s n) ∧ (s.params.readExtends = false → t.len = s.len ∧ t.mem = s.mem) ∧
    t.iq = s.iq ∧ t.fr = s.fr ∧ t.params = s.params ∧
    (i.opcode ≠ .arb → t.rb = s.rb) ∧ (i.opcode ≠ .out → t.ob = s.ob) ∧ (i.opcode ≠ .halt → t.st = s.st)

/-! ## Whole-machine rules -/

/-- When the words at `IP` decode to `i` and the core is running, a step is `exec` of `i` at that state: nothing is added
around it, `IP` still addressing the opcode word (R60). -/
def Obligations.StepRunsDecodedInstruction : Prop :=
  ∀ (s : State) (ws : List Word) (i : Instr), s.st = .running → decodeWords ws = .ok i →
    (∀ k, k < 4 → memRead s (s.ip.toNat + k) = ws.getD k 0) → step s = exec i s

/-- A step is taken only while running: in every other status nothing inside the core changes any state (R60, R66, R106;
the model's reading: log 3). -/
def Obligations.StepOnlyWhileRunning : Prop :=
  ∀ s : State, s.st ≠ .running → step s = .next s

/-- The relative base is adjusted only by ARB (R12). -/
def Obligations.RelativeBaseOnlyByArb : Prop :=
  ∀ s t : State, step s = .next t → t.st ≠ .faulted → t.rb ≠ s.rb →
    ∃ a m2 m3, fetch s = .ok (.arb a m2 m3)

/-- No step and no host command changes the parameters (R22). -/
def Obligations.ParametersNeverChange : Prop :=
  (∀ s t : State, step s = .next t → t.params = s.params) ∧
  (∀ (fuel : Nat) (c : HostCommand) (s t : State) (r : HostReply),
    hostCommand fuel c (some s) = some (r, some t) → t.params = s.params)

/-- The status transitions of R17 under a step: from RUNNING to HALTED exactly on a HALT, to BLOCKED exactly on an IN with an
empty `IQ` and no fault, to FAULTED exactly on a fault; and no step leaves another status. -/
def Obligations.StatusTransitions : Prop :=
  ∀ s t : State, step s = .next t →
    (s.st ≠ .running → t.st = s.st) ∧
    (s.st = .running →
      (t.st = .halted ↔ ∃ m1 m2 m3, fetch s = .ok (.halt m1 m2 m3)) ∧
      (t.st = .blocked ↔ s.iq = [] ∧ ∃ a m2 m3, fetch s = .ok (.inp a m2 m3) ∧ firstFault (.inp a m2 m3) s = none) ∧
      (t.st = .faulted ↔ (∃ e, fetch s = .error e) ∨ ∃ i, fetch s = .ok i ∧ firstFault i s ≠ none))

/-- The BlockedOnInput invariant (R21): the step that blocks was at an IN and changed nothing but the status, so `IP` still
addresses that IN; a RUN that reports a block carries that `IP`; and while the instance stays blocked, every host command
but RUN and LOAD leaves `IP` and the instruction there as they are. -/
def Obligations.BlockHasNoEffect : Prop :=
  (∀ s t : State, s.st = .running → step s = .next t → t.st = .blocked →
    t = { s with st := .blocked } ∧ s.iq = [] ∧ ∃ a m2 m3, fetch t = .ok (.inp a m2 m3)) ∧
  (∀ (s t : State) (p : Pointer), RunReturns s (.blockedOnInput p) t →
    t.st = .blocked ∧ p = t.ip ∧ ∃ a m2 m3, fetch t = .ok (.inp a m2 m3)) ∧
  (∀ (fuel : Nat) (c : HostCommand) (s t : State) (r : HostReply), s.st = .blocked → c ≠ .run →
    (∀ params P, c ≠ .load params P) → hostCommand fuel c (some s) = some (r, some t) →
    t.st = .blocked ∧ t.ip = s.ip ∧ fetch t = fetch s)

/-- A RUN on a blocked instance whose `IQ` is still empty blocks again at its first step, with the same `IP` and no change at
all: of every blocked state at an IN with a good write operand, whatever the host did since the block; and so of the state
every blocking RUN leaves (R67, whose sentence the spec derives). -/
def Obligations.StillEmptyBlocksAgain : Prop :=
  (∀ (s : State) (a : Param) (m2 m3 : Mode), s.st = .blocked → s.iq = [] → fetch s = .ok (.inp a m2 m3) →
    firstFault (.inp a m2 m3) s = none → ∀ fuel, run (fuel + 1) s = some (.blockedOnInput s.ip, s)) ∧
  (∀ (s t : State) (p : Pointer), RunReturns s (.blockedOnInput p) t →
    ∀ fuel, run (fuel + 1) t = some (.blockedOnInput p, t))

/-- I/O ordering (R80): a step takes at most the front of `IQ`, by an IN, and appends at most one word to `OB`, by an OUT; so
a RUN consumes a front part of `IQ` in order and appends to `OB` in program order. -/
def Obligations.InputAndOutputInOrder : Prop :=
  (∀ s t : State, step s = .next t → t.st ≠ .faulted →
    (t.iq = s.iq ∨ ∃ v a m2 m3, s.iq = v :: t.iq ∧ fetch s = .ok (.inp a m2 m3) ∧
      memRead t (address s a).toNat = v) ∧
    (t.ob = s.ob ∨ ∃ a m2 m3, fetch s = .ok (.out a m2 m3) ∧ t.ob = s.ob ++ [value s a])) ∧
  (∀ (s t : State) (r : RunResult), RunReturns s r t → t.st ≠ .faulted →
    (∃ used, s.iq = used ++ t.iq) ∧ ∃ made, t.ob = s.ob ++ made)

/-- No instruction reads the output buffer (R16): with anything put before its words, every instruction does the same and
keeps it there. The equation covers a faulted next state too; what it says there of `OB`, `M`, `LEN`, `RB`, `IP` and `IQ`
is the model's choice to follow R62's reference behaviour, which the spec derives, where U1 lets them have any value
(log 4). -/
def Obligations.OutputBufferUnread : Prop :=
  ∀ (i : Instr) (s t : State) (o : List Word), exec i s = .next t →
    exec i { s with ob := o ++ s.ob } = .next { t with ob := o ++ t.ob }

/-- The only thing READ_EXTENDS changes is `LEN` (R30; D13), which no instruction can read (R24): from a reachable state, a
step with it and a step without it agree in everything else. -/
def Obligations.ReadExtensionOnlyChangesLength : Prop :=
  ∀ (s : State) (L : Nat), Invariant s → s.len ≤ L → L ≤ s.params.memCapacity → ∀ t u : State,
    step { s with params := { s.params with readExtends := true }, len := L } = .next t →
    step { s with params := { s.params with readExtends := false } } = .next u →
    t.st = u.st ∧ t.fr = u.fr ∧
    (t.st ≠ .faulted → { t with len := u.len, params := u.params } = u ∧ u.len ≤ t.len)

/-! ## Reset and the invariant -/

/-- What reset leaves (R25): IP and RB 0, every word 0, LEN 0 (the empty program), both queues empty, RUNNING, no fault, and
the reference parameters of R4 (the queues: D23; that reset is LOAD of the empty program: log 2). -/
def Obligations.ResetValues : Prop :=
  State.reset.ip = 0 ∧ State.reset.rb = 0 ∧ (∀ a, memRead State.reset a = 0) ∧ State.reset.len = 0 ∧
  State.reset.iq = [] ∧ State.reset.ob = [] ∧ State.reset.st = .running ∧ State.reset.fr = none ∧
  State.reset.params = { memCapacity := 2 ^ 63, readExtends := false, overflowPolicy := .fault } ∧
  load Params.reference [] = some State.reset

/-- The invariant holds at reset. -/
def Obligations.InvariantAtReset : Prop := Invariant State.reset

/-- Every step keeps the invariant: the memory canonical, words at and above `LEN` 0 (R13), `LEN` at most MEM_CAPACITY
(R14), `IP` at most 2^63 + 3 (R63), a fault record exactly when faulted (R18), a blocked `IP` at an IN (R21). -/
def Obligations.StepKeepsInvariant : Prop :=
  ∀ s t : State, Invariant s → step s = .next t → Invariant t

/-- Every host command keeps the invariant, and LOAD establishes it, whatever the instance was before. -/
def Obligations.HostCommandsKeepInvariant : Prop :=
  (∀ (fuel : Nat) (c : HostCommand) (s t : State) (r : HostReply), Invariant s →
    hostCommand fuel c (some s) = some (r, some t) → Invariant t) ∧
  (∀ (params : Params) (P : List Word) (t : State), params.Valid → load params P = some t → Invariant t)

/-! ## Host commands -/

/-- LOAD is the reset (R107, R25; D27): a program that fits replaces the whole state; a longer one is refused, creates no
instance and leaves an existing one unchanged. -/
def Obligations.LoadResetsOrIsRefused : Prop :=
  ∀ (fuel : Nat) (params : Params) (P : List Word) (inst : Option State),
    let Q := loadParams inst params
    (P.length ≤ Q.memCapacity → ∃ t, hostCommand fuel (.load params P) inst = some (.nothing, some t) ∧
      (∀ a, memRead t a = P.getD a 0) ∧ t.mem.wf = true ∧
      t = { ip := 0, rb := 0, mem := t.mem, len := P.length, iq := [], ob := [], st := .running, fr := none
            params := Q }) ∧
    (Q.memCapacity < P.length → hostCommand fuel (.load params P) inst = some (.loadRefused, inst))

/-- RUN on a halted instance is a no-op that returns Ok at once (R66). -/
def Obligations.RunOnHaltedIsNoOp : Prop :=
  ∀ (fuel : Nat) (s : State), s.st = .halted →
    hostCommand fuel .run (some s) = some (.runResult .ok, some s) ∧ ∀ r t, RunReturns s r t → r = .ok ∧ t = s

/-- RUN on a faulted instance returns the same Fatal, takes no step and changes no state (R68; D16). -/
def Obligations.RunOnFaultedRepeatsFatal : Prop :=
  ∀ (fuel : Nat) (s : State), s.st = .faulted → run fuel s = some (.fatal s.fr, s)

/-- How a RUN ends (R64, R65, R69): Ok in HALTED, BlockedOnInput with `IP` in BLOCKED, Fatal with `FR` in FAULTED, and never
in RUNNING; more fuel never changes a result, so a RUN has at most one. -/
def Obligations.RunEndsExactly : Prop :=
  (∀ (s t : State) (r : RunResult), RunReturns s r t →
    (t.st = .halted ∧ r = .ok) ∨ (t.st = .blocked ∧ r = .blockedOnInput t.ip) ∨ (t.st = .faulted ∧ r = .fatal t.fr)) ∧
  (∀ (s : State) (fuel more : Nat) (x : RunResult × State), run fuel s = some x → run (fuel + more) s = some x)

/-- A RUN is its steps (R65, R67): a blocked instance runs as the same state running; a running one takes a step and, while
that leaves it running, goes on from there. -/
def Obligations.RunIsItsSteps : Prop :=
  (∀ (s t : State) (r : RunResult), s.st = .blocked →
    (RunReturns s r t ↔ RunReturns { s with st := .running } r t)) ∧
  (∀ (s u t : State) (r : RunResult), s.st = .running → step s = .next u →
    (RunReturns s r t ↔ (u.st = .running ∧ RunReturns u r t) ∨ (runResult u = some r ∧ u = t)))

/-- Idempotence of resumption (R70, which the spec derives): a RUN that blocks, then ADD_INPUT of any words, then RUN, is the
RUN with those words present from the start: the same result, the same final state (after a fault, the same record: U1). -/
def Obligations.ResumptionIsIdempotent : Prop :=
  ∀ (s b : State) (p : Pointer) (ws : List Word), RunReturns s (.blockedOnInput p) b →
    (∀ (r : RunResult) (t : State), RunReturns (addInputs ws b) r t →
      ∃ u, RunReturns (addInputs ws s) r u ∧ Agree t u) ∧
    (∀ (r : RunResult) (t : State), RunReturns (addInputs ws s) r t →
      ∃ u, RunReturns (addInputs ws b) r u ∧ Agree t u)

/-- ADD_INPUT appends at the back of `IQ` in every status and changes nothing else (R100; in every status: D26). -/
def Obligations.AddInputAppends : Prop :=
  ∀ (fuel : Nat) (v : Word) (s : State),
    hostCommand fuel (.addInput v) (some s) = some (.nothing, some { s with iq := s.iq ++ [v] })

/-- GET_OUTPUT returns `OB` and changes nothing; POP_OUTPUT returns `OB` and empties it; `OB` accumulates across runs until
popped (R101; after a fault it is not read, U1). -/
def Obligations.OutputIsReadAndDrained : Prop :=
  (∀ (fuel : Nat) (s : State), hostCommand fuel .getOutput (some s) = some (.words s.ob, some s) ∧
    hostCommand fuel .popOutput (some s) = some (.words s.ob, some { s with ob := [] })) ∧
  (∀ (s t : State) (r : RunResult), RunReturns s r t → t.st ≠ .faulted → s.ob <+: t.ob)

/-- GET_UNUSED_INPUT returns `IQ`, front first, and changes nothing (R102): the words pushed and not yet consumed. -/
def Obligations.UnusedInputIsRead : Prop :=
  (∀ (fuel : Nat) (s : State), hostCommand fuel .getUnusedInput (some s) = some (.words s.iq, some s)) ∧
  (∀ (s t : State) (r : RunResult), RunReturns s r t → t.st ≠ .faulted → t.iq <:+ s.iq)

/-- READ_MEMORY returns the words at 0 .. LEN-1 and changes nothing (R103; D19). -/
def Obligations.ReadMemoryReturnsTape : Prop :=
  ∀ (fuel : Nat) (s : State), ∃ ws, hostCommand fuel .readMemory (some s) = some (.words ws, some s) ∧
    ws.length = s.len ∧ ∀ a, a < s.len → ws[a]? = some (memRead s a)

/-- The status view (R20): the codes of the four statuses, `blocked_ip` equal to `IP` when blocked, the fields of `FR` with the
six codes of R85, or 0; all 0 after a LOAD (the codes: D17). -/
def Obligations.StatusViewCodes : Prop :=
  ∀ s : State,
    (s.st = .running → (statusView s).status = 0) ∧ (s.st = .halted → (statusView s).status = 1) ∧
    (s.st = .blocked → (statusView s).status = 2 ∧ (statusView s).blockedIp = some s.ip) ∧
    (s.st = .faulted → (statusView s).status = 3) ∧
    (∀ r, s.fr = some r →
      (r.kind = .illegalOpcode → (statusView s).faultKind = 1) ∧
      (r.kind = .invalidParameterMode → (statusView s).faultKind = 2) ∧
      (r.kind = .negativeAddress → (statusView s).faultKind = 3) ∧
      (r.kind = .writeToImmediate → (statusView s).faultKind = 4) ∧
      (r.kind = .arithmeticOverflow → (statusView s).faultKind = 5) ∧
      (r.kind = .memoryCapacityExceeded → (statusView s).faultKind = 6) ∧
      (statusView s).faultIp = r.ip ∧ (statusView s).faultValue = r.value.getD 0) ∧
    (s.fr = none → (statusView s).faultKind = 0 ∧ (statusView s).faultIp = 0 ∧ (statusView s).faultValue = 0) ∧
    (∀ params P, load params P = some s → statusView s =
      { status := 0, blockedIp := some 0, faultKind := 0, faultIp := 0, faultValue := 0 })

/-- Instances share nothing (R41): a command to one, at any place, leaves every other as it was, and its reply and effect are
those of the command on that instance alone, whatever the others hold. -/
def Obligations.InstancesShareNothing : Prop :=
  (∀ (fuel k : Nat) (c : HostCommand) (insts after : Instances) (r : HostReply),
    commandAt fuel k c insts = some (r, after) →
    hostCommand fuel c (instanceAt insts k) = some (r, instanceAt after k) ∧
    ∀ j, j ≠ k → instanceAt after j = instanceAt insts j) ∧
  (∀ (fuel k : Nat) (c : HostCommand) (insts others after after' : Instances) (r r' : HostReply),
    instanceAt insts k = instanceAt others k →
    commandAt fuel k c insts = some (r, after) → commandAt fuel k c others = some (r', after') →
    r = r' ∧ instanceAt after k = instanceAt after' k)

/-! ## Assembler -/

/-- What the assembler makes of an instruction line, and of which (R54; the syntax: D22): the line is accepted with the words
`ws` exactly when its mnemonic's opcode `o` and operands (R55 expanded) give as many parameters as `o` has and there is an
instruction `i` of that opcode with these parameters, absent modes Position and no Immediate write operand; `ws` is then
`[Encode(o, m1, m2, m3), raw1, .., raw_arity]` with the digits of absent operands 0, and decodes to `i`. -/
def Obligations.AssembledLinesDecode : Prop :=
  ∀ (labels : List (List Char × Nat)) (op : AsmOp) (os : List AsmOperand) (ws : List Word),
    assembleInstr labels op os = .ok ws ↔
      ∃ (o : Opcode) (operands : List AsmOperand) (ps : List Param) (i : Instr),
        expandPseudo op os = .ok (o, operands) ∧
        operands.map (AsmOperand.param labels) = ps.map .ok ∧ ps.length = o.arity ∧
        i.opcode = o ∧ operandsOf i = ps ∧ (∀ m ∈ absentModes i, m = .position) ∧ i.wellFormed = true ∧
        ws = encodeOpcode o ((ps.map Param.mode).getD 0 .position) ((ps.map Param.mode).getD 1 .position)
          ((ps.map Param.mode).getD 2 .position) :: ps.map Param.raw ∧
        decodeWords ws = .ok i

/-- The pseudo-instructions (R55; D22), with operands of every form, labels among them, under every overflow policy. `JMP t`
is `JNZ 1, t` and always jumps to the value of `t` (a negative one faults: D14). `NOP` is `1106, 1, 0` and only advances
`IP` by 3. `MOV s, d` is `ADD s, 0, d` and copies the value of `s` to `d`; an Immediate `d` is refused. -/
def Obligations.PseudoInstructions : Prop :=
  (∀ (labels : List (List Char × Nat)) (t : AsmOperand) (p : Param), t.param labels = .ok p →
    assembleInstr labels .jmp [t] = .ok (encode (.jnz ⟨.immediate, 1⟩ p .position)) ∧
    (p.mode = .immediate → assembleInstr labels .jmp [t] = .ok [1105, 1, p.raw]) ∧
    ∀ s : State, operandFault s false p = none → 0 ≤ (value s p).toInt →
      ∃ u, exec (.jnz ⟨.immediate, 1⟩ p .position) s = .next u ∧ (∀ n, memRead u n = memRead s n) ∧
        u = { s with ip := value s p, mem := u.mem, len := lenAfterRead s p s.len }) ∧
  (∀ labels : List (List Char × Nat), assembleInstr labels .nop [] = .ok [1106, 1, 0] ∧
    decodeWords [1106, 1, 0] = .ok (.jz ⟨.immediate, 1⟩ ⟨.immediate, 0⟩ .position) ∧
    ∀ s : State, exec (.jz ⟨.immediate, 1⟩ ⟨.immediate, 0⟩ .position) s = .next { s with ip := s.ip + 3 }) ∧
  (∀ (labels : List (List Char × Nat)) (src dst : AsmOperand) (p q : Param),
    src.param labels = .ok p → dst.param labels = .ok q →
    (q.mode = .immediate → assembleInstr labels .mov [src, dst] = .error .immediateDestination) ∧
    (q.mode ≠ .immediate → assembleInstr labels .mov [src, dst] = .ok (encode (.add p ⟨.immediate, 0⟩ q))) ∧
    ∀ s : State, operandFault s false p = none → operandFault s true q = none →
      ∃ u, exec (.add p ⟨.immediate, 0⟩ q) s = .next u ∧
        memRead u (address s q).toNat = value s p ∧
        (∀ n, n ≠ (address s q).toNat → memRead u n = memRead s n) ∧
        u = { s with
          ip := s.ip + 4, mem := u.mem, len := max (lenAfterRead s p s.len) ((address s q).toNat + 1) })

/-- The operand forms of R54 (D22), where `n` is a number or a label's address: `n` is Immediate, `[n]` Position, `[rb+n]`
Relative, each with the raw word `n`, and `[rb-n]` Relative with the raw word `-n`. That a number which is no word, a `-n`
which is none and a label no line defines are refused is the model's choice (log 9). -/
def Obligations.OperandForms : Prop :=
  ∀ labels : List (List Char × Nat),
    (∀ x, (AsmValue.num x).eval labels = .ok x) ∧
    (∀ n a, labels.lookup n = some a → (AsmValue.label n).eval labels = .ok (a : Int)) ∧
    (∀ n, labels.lookup n = none → (AsmValue.label n).eval labels = .error .unknownLabel) ∧
    ∀ (n : AsmValue) (x : Int), n.eval labels = .ok x →
      (IsWord x → ∃ w : Word, w.toInt = x ∧
        (AsmOperand.imm n).param labels = .ok ⟨.immediate, w⟩ ∧ (AsmOperand.pos n).param labels = .ok ⟨.position, w⟩ ∧
        (AsmOperand.relPlus n).param labels = .ok ⟨.relative, w⟩) ∧
      (IsWord x → IsWord (-x) → ∃ w : Word, w.toInt = -x ∧
        (AsmOperand.relMinus n).param labels = .ok ⟨.relative, w⟩) ∧
      (¬ IsWord x → (AsmOperand.imm n).param labels = .error .notAWord ∧
        (AsmOperand.pos n).param labels = .error .notAWord ∧ (AsmOperand.relPlus n).param labels = .error .notAWord) ∧
      (¬ (IsWord x ∧ IsWord (-x)) → (AsmOperand.relMinus n).param labels = .error .notAWord)

/-! ## Input that arrives later -/

/-- Words appended to `IQ` change no step but one that blocks: every other step does the same with them present as without,
and leaves them at the back of `IQ` (the step of R70's property, which the spec derives; after a fault, the same record:
U1). -/
def Obligations.LaterInputChangesNoStep : Prop :=
  ∀ (s t : State) (ws : List Word), step s = .next t → t.st ≠ .blocked →
    ∃ u, step (addInputs ws s) = .next u ∧ Agree (addInputs ws t) u

/-! ## Any number of instances -/

/-- Any number of instances may exist (R104): at every place, whatever the others are, a LOAD of a program that fits creates
the instance there or resets it, a longer one is refused and changes no instance, and a DISCARD ends the instance (R99, R107;
D27; an instance keeps its parameters and has a place: log 12). -/
def Obligations.AnyNumberOfInstances : Prop :=
  ∀ (fuel k : Nat) (params : Params) (P : List Word) (insts : Instances),
    let Q := loadParams (instanceAt insts k) params
    (P.length ≤ Q.memCapacity → ∃ after t, commandAt fuel k (.load params P) insts = some (.nothing, after) ∧
      load Q P = some t ∧ instanceAt after k = some t ∧ ∀ j, j ≠ k → instanceAt after j = instanceAt insts j) ∧
    (Q.memCapacity < P.length → ∃ after, commandAt fuel k (.load params P) insts = some (.loadRefused, after) ∧
      ∀ j, instanceAt after j = instanceAt insts j) ∧
    ((instanceAt insts k).isSome = true → ∃ after, commandAt fuel k .discard insts = some (.nothing, after) ∧
      instanceAt after k = none ∧ ∀ j, j ≠ k → instanceAt after j = instanceAt insts j)
end

