-- ==== Sys2Proof/Laws/Assembler.lean ====
section
/-! SUPPORT. What each helper of the assembler can do, so that no proof unfolds it. -/

namespace Sys2Proof.Machine

open Sys2Proof.Safety

/-- `asmAll` succeeds exactly where every entry does, with their results. -/
theorem asmAll_ok_iff {α β : Type} (f : α → Except AsmError β) (xs : List α) (ys : List β) :
    asmAll f xs = .ok ys ↔ xs.map f = ys.map .ok := by
  induction xs generalizing ys with
  | nil => cases ys <;> simp [asmAll]
  | cons x xs ih =>
    rcases hf : f x with e | y <;> rcases h : asmAll f xs with e' | zs <;> cases ys <;> simp [asmAll, hf, h, ← ih]

/-- The instruction `asmInstr` builds has the opcode and the parameters it was given, and absent modes Position. -/
theorem asmInstr_spec (o : Opcode) (ps : List Param) (h : ps.length = o.arity) :
    (asmInstr o ps).opcode = o ∧ operandsOf (asmInstr o ps) = ps ∧ ∀ m ∈ absentModes (asmInstr o ps), m = .position := by
  cases o <;>
    first
    | (obtain ⟨a, b, c, rfl⟩ := List.length_eq_three.mp h; exact ⟨rfl, rfl, by simp [asmInstr, Decoded.toInstr, absentModes]⟩)
    | (obtain ⟨a, b, rfl⟩ := List.length_eq_two.mp h; exact ⟨rfl, rfl, by simp [asmInstr, Decoded.toInstr, absentModes]⟩)
    | (obtain ⟨a, rfl⟩ := List.length_eq_one_iff.mp h; exact ⟨rfl, rfl, by simp [asmInstr, Decoded.toInstr, absentModes]⟩)
    | (obtain rfl := List.length_eq_zero_iff.mp h; exact ⟨rfl, rfl, by simp [asmInstr, Decoded.toInstr, absentModes]⟩)

/-- An instruction is determined by its opcode, its parameters and its absent modes, where these are Position. -/
theorem eq_asmInstr (i : Instr) (h : ∀ m ∈ absentModes i, m = .position) : i = asmInstr i.opcode (operandsOf i) := by
  cases i <;> simp_all [absentModes, asmInstr, operandsOf, Decoded.toInstr, Instr.opcode]

end Sys2Proof.Machine
end

