-- ==== Sys2Proof/Laws/State.lean ====
section
/-! SUPPORT. What each named update of the state does to each field, so that no later proof unfolds a record update. -/

namespace Sys2Proof.Machine

@[simp] theorem extendTape_ip (a : Nat) (s : State) : (extendTape a s).ip = s.ip := by unfold extendTape; split <;> rfl
@[simp] theorem extendTape_rb (a : Nat) (s : State) : (extendTape a s).rb = s.rb := by unfold extendTape; split <;> rfl
@[simp] theorem extendTape_iq (a : Nat) (s : State) : (extendTape a s).iq = s.iq := by unfold extendTape; split <;> rfl
@[simp] theorem extendTape_ob (a : Nat) (s : State) : (extendTape a s).ob = s.ob := by unfold extendTape; split <;> rfl
@[simp] theorem extendTape_st (a : Nat) (s : State) : (extendTape a s).st = s.st := by unfold extendTape; split <;> rfl
@[simp] theorem extendTape_fr (a : Nat) (s : State) : (extendTape a s).fr = s.fr := by unfold extendTape; split <;> rfl
@[simp] theorem extendTape_params (a : Nat) (s : State) : (extendTape a s).params = s.params := by unfold extendTape; split <;> rfl

@[simp] theorem extendOnRead_ip (a : Nat) (s : State) : (extendOnRead a s).ip = s.ip := by unfold extendOnRead; split <;> simp
@[simp] theorem extendOnRead_rb (a : Nat) (s : State) : (extendOnRead a s).rb = s.rb := by unfold extendOnRead; split <;> simp
@[simp] theorem extendOnRead_iq (a : Nat) (s : State) : (extendOnRead a s).iq = s.iq := by unfold extendOnRead; split <;> simp
@[simp] theorem extendOnRead_ob (a : Nat) (s : State) : (extendOnRead a s).ob = s.ob := by unfold extendOnRead; split <;> simp
@[simp] theorem extendOnRead_st (a : Nat) (s : State) : (extendOnRead a s).st = s.st := by unfold extendOnRead; split <;> simp
@[simp] theorem extendOnRead_fr (a : Nat) (s : State) : (extendOnRead a s).fr = s.fr := by unfold extendOnRead; split <;> simp
@[simp] theorem extendOnRead_params (a : Nat) (s : State) : (extendOnRead a s).params = s.params := by unfold extendOnRead; split <;> simp

@[simp] theorem memWrite_ip (a : Nat) (v : Word) (s : State) : (memWrite a v s).ip = s.ip := by simp [memWrite]
@[simp] theorem memWrite_rb (a : Nat) (v : Word) (s : State) : (memWrite a v s).rb = s.rb := by simp [memWrite]
@[simp] theorem memWrite_iq (a : Nat) (v : Word) (s : State) : (memWrite a v s).iq = s.iq := by simp [memWrite]
@[simp] theorem memWrite_ob (a : Nat) (v : Word) (s : State) : (memWrite a v s).ob = s.ob := by simp [memWrite]
@[simp] theorem memWrite_st (a : Nat) (v : Word) (s : State) : (memWrite a v s).st = s.st := by simp [memWrite]
@[simp] theorem memWrite_fr (a : Nat) (v : Word) (s : State) : (memWrite a v s).fr = s.fr := by simp [memWrite]
@[simp] theorem memWrite_params (a : Nat) (v : Word) (s : State) : (memWrite a v s).params = s.params := by simp [memWrite]

@[simp] theorem advance_ip (n : Nat) (s : State) : (advance n s).ip = s.ip + BitVec.ofNat 64 n := rfl
@[simp] theorem advance_rb (n : Nat) (s : State) : (advance n s).rb = s.rb := rfl
@[simp] theorem advance_mem (n : Nat) (s : State) : (advance n s).mem = s.mem := rfl
@[simp] theorem advance_len (n : Nat) (s : State) : (advance n s).len = s.len := rfl
@[simp] theorem advance_iq (n : Nat) (s : State) : (advance n s).iq = s.iq := rfl
@[simp] theorem advance_ob (n : Nat) (s : State) : (advance n s).ob = s.ob := rfl
@[simp] theorem advance_st (n : Nat) (s : State) : (advance n s).st = s.st := rfl
@[simp] theorem advance_fr (n : Nat) (s : State) : (advance n s).fr = s.fr := rfl
@[simp] theorem advance_params (n : Nat) (s : State) : (advance n s).params = s.params := rfl

@[simp] theorem takeFault_ip (c : FaultCause) (s : State) : (takeFault c s).ip = s.ip := rfl
@[simp] theorem takeFault_rb (c : FaultCause) (s : State) : (takeFault c s).rb = s.rb := rfl
@[simp] theorem takeFault_mem (c : FaultCause) (s : State) : (takeFault c s).mem = s.mem := rfl
@[simp] theorem takeFault_len (c : FaultCause) (s : State) : (takeFault c s).len = s.len := rfl
@[simp] theorem takeFault_iq (c : FaultCause) (s : State) : (takeFault c s).iq = s.iq := rfl
@[simp] theorem takeFault_ob (c : FaultCause) (s : State) : (takeFault c s).ob = s.ob := rfl
@[simp] theorem takeFault_st (c : FaultCause) (s : State) : (takeFault c s).st = .faulted := rfl
@[simp] theorem takeFault_fr (c : FaultCause) (s : State) : (takeFault c s).fr = some { kind := c.kind, ip := s.ip, value := c.value } := rfl
@[simp] theorem takeFault_params (c : FaultCause) (s : State) : (takeFault c s).params = s.params := rfl

@[simp] theorem block_ip (s : State) : (block s).ip = s.ip := rfl
@[simp] theorem block_rb (s : State) : (block s).rb = s.rb := rfl
@[simp] theorem block_mem (s : State) : (block s).mem = s.mem := rfl
@[simp] theorem block_len (s : State) : (block s).len = s.len := rfl
@[simp] theorem block_iq (s : State) : (block s).iq = s.iq := rfl
@[simp] theorem block_ob (s : State) : (block s).ob = s.ob := rfl
@[simp] theorem block_st (s : State) : (block s).st = .blocked := rfl
@[simp] theorem block_fr (s : State) : (block s).fr = s.fr := rfl
@[simp] theorem block_params (s : State) : (block s).params = s.params := rfl

@[simp] theorem resume_ip (s : State) : (resume s).ip = s.ip := rfl
@[simp] theorem resume_rb (s : State) : (resume s).rb = s.rb := rfl
@[simp] theorem resume_mem (s : State) : (resume s).mem = s.mem := rfl
@[simp] theorem resume_len (s : State) : (resume s).len = s.len := rfl
@[simp] theorem resume_iq (s : State) : (resume s).iq = s.iq := rfl
@[simp] theorem resume_ob (s : State) : (resume s).ob = s.ob := rfl
@[simp] theorem resume_st (s : State) : (resume s).st = .running := rfl
@[simp] theorem resume_fr (s : State) : (resume s).fr = s.fr := rfl
@[simp] theorem resume_params (s : State) : (resume s).params = s.params := rfl

@[simp] theorem addInput_ip (v : Word) (s : State) : (addInput v s).ip = s.ip := rfl
@[simp] theorem addInput_rb (v : Word) (s : State) : (addInput v s).rb = s.rb := rfl
@[simp] theorem addInput_mem (v : Word) (s : State) : (addInput v s).mem = s.mem := rfl
@[simp] theorem addInput_len (v : Word) (s : State) : (addInput v s).len = s.len := rfl
@[simp] theorem addInput_iq (v : Word) (s : State) : (addInput v s).iq = s.iq ++ [v] := rfl
@[simp] theorem addInput_ob (v : Word) (s : State) : (addInput v s).ob = s.ob := rfl
@[simp] theorem addInput_st (v : Word) (s : State) : (addInput v s).st = s.st := rfl
@[simp] theorem addInput_fr (v : Word) (s : State) : (addInput v s).fr = s.fr := rfl
@[simp] theorem addInput_params (v : Word) (s : State) : (addInput v s).params = s.params := rfl

end Sys2Proof.Machine
end

