-- ==== Sys2Proof/Laws/Memory.lean ====
section
/-! SUPPORT. Laws of the memory array and of the tape: read after write, the canonical form, the tape length. -/

namespace Sys2Proof.Machine

/-! ## Reading the array -/

theorem Memory.read_filter (p : Nat → Bool) (m : Memory) (b : Nat) :
    Memory.read (m.filter (fun c => p c.1)) b = if p b then m.read b else 0 := by
  induction m with
  | nil => simp [Memory.read]
  | cons c m ih =>
    obtain ⟨k, w⟩ := c
    by_cases hk : p k = true
    · by_cases hb : b = k
      · subst hb; simp [Memory.read, hk]
      · simp [Memory.read, hk, hb, ih]
    · by_cases hb : b = k
      · subst hb; simp [hk, ih]
      · simp [Memory.read, hk, hb, ih]

theorem Memory.read_erase (m : Memory) (a b : Nat) : (m.erase a).read b = if b = a then 0 else m.read b := by
  have h := Memory.read_filter (fun k => k != a) m b
  by_cases hb : b = a <;> simp_all [Memory.erase]

theorem Memory.read_zeroFill (m : Memory) (lo hi b : Nat) :
    (m.zeroFill lo hi).read b = if lo ≤ b ∧ b < hi then 0 else m.read b := by
  have h := Memory.read_filter (fun k => !(decide (lo ≤ k) && decide (k < hi))) m b
  refine h.trans ?_
  by_cases hb : lo ≤ b ∧ b < hi
  · simp [hb.1, hb.2]
  · rw [if_neg hb, if_pos]
    simp only [Bool.not_eq_true', Bool.and_eq_false_iff, decide_eq_false_iff_not]
    omega

theorem Memory.read_insert (m : Memory) (a b : Nat) (v : Word) (h : ∀ c ∈ m, c.1 ≠ a) :
    (m.insert a v).read b = if b = a then v else m.read b := by
  induction m with
  | nil => simp [Memory.insert, Memory.read]
  | cons c m ih =>
    obtain ⟨k, w⟩ := c
    have hk : k ≠ a := h (k, w) (by simp)
    have ih := ih (fun c hc => h c (by simp [hc]))
    by_cases hlt : a < k
    · simp [Memory.insert, hlt, Memory.read]
    · by_cases hb : b = k
      · subst hb; simp [Memory.insert, hlt, Memory.read, hk]
      · simp [Memory.insert, hlt, Memory.read, hb, ih]

theorem Memory.erase_ne (m : Memory) (a : Nat) : ∀ c ∈ m.erase a, c.1 ≠ a := by
  intro c hc
  simp only [Memory.erase, List.mem_filter, bne_iff_ne] at hc
  exact hc.2

/-- Read after write, for every memory and every pair of addresses. -/
theorem Memory.read_write (m : Memory) (a b : Nat) (v : Word) :
    (m.write a v).read b = if b = a then v else m.read b := by
  unfold Memory.write
  split
  · next hv => subst hv; exact m.read_erase a b
  · rw [Memory.read_insert _ _ _ _ (m.erase_ne a), Memory.read_erase]
    split <;> rfl

theorem Memory.read_ofWords (ws : List Word) (lo b : Nat) :
    (Memory.ofWords lo ws).read b = if lo ≤ b then ws.getD (b - lo) 0 else 0 := by
  induction ws generalizing lo with
  | nil => simp [Memory.ofWords, Memory.read]
  | cons w ws ih =>
    have key : (Memory.ofWords (lo + 1) ws).read b = if lo + 1 ≤ b then ws.getD (b - (lo + 1)) 0 else 0 := ih (lo + 1)
    have shift : lo + 1 ≤ b → (w :: ws).getD (b - lo) 0 = ws.getD (b - (lo + 1)) 0 := by
      intro h
      have : b - lo = (b - (lo + 1)) + 1 := by omega
      rw [this, List.getD_cons_succ]
    unfold Memory.ofWords
    by_cases hlo : b = lo
    · subst hlo
      by_cases hw : w = 0
      · simp [hw, key]
      · rw [if_neg hw, Memory.read]; simp
    · by_cases hle : lo ≤ b
      · have h1 : lo + 1 ≤ b := by omega
        by_cases hw : w = 0
        · rw [if_pos hw, key, if_pos h1, if_pos hle, shift h1]
        · rw [if_neg hw, Memory.read, if_neg hlo, key, if_pos h1, if_pos hle, shift h1]
      · have h1 : ¬ lo + 1 ≤ b := by omega
        by_cases hw : w = 0
        · rw [if_pos hw, key, if_neg h1, if_neg hle]
        · rw [if_neg hw, Memory.read, if_neg hlo, key, if_neg h1, if_neg hle]

/-! ## The canonical form -/

theorem Memory.wfFrom_mono {lo hi : Nat} (h : lo ≤ hi) (m : Memory) (hm : Memory.wfFrom hi m = true) :
    Memory.wfFrom lo m = true := by
  cases m with
  | nil => rfl
  | cons c m =>
    obtain ⟨k, w⟩ := c
    simp only [Memory.wfFrom, Bool.and_eq_true, decide_eq_true_eq] at hm ⊢
    exact ⟨⟨by omega, hm.1.2⟩, hm.2⟩

theorem Memory.wfFrom_filter (p : Nat × Word → Bool) (m : Memory) (lo : Nat) (hm : Memory.wfFrom lo m = true) :
    Memory.wfFrom lo (m.filter p) = true := by
  induction m generalizing lo with
  | nil => rfl
  | cons c m ih =>
    obtain ⟨k, w⟩ := c
    simp only [Memory.wfFrom, Bool.and_eq_true, decide_eq_true_eq] at hm
    have h := ih (k + 1) hm.2
    by_cases hp : p (k, w) = true
    · simp only [List.filter_cons, hp, if_true, Memory.wfFrom, Bool.and_eq_true, decide_eq_true_eq]
      exact ⟨hm.1, h⟩
    · simp only [List.filter_cons, hp]
      exact Memory.wfFrom_mono (by omega) _ h

theorem Memory.wfFrom_insert (m : Memory) (lo a : Nat) (v : Word) (hm : Memory.wfFrom lo m = true) (ha : lo ≤ a)
    (hv : v ≠ 0) (hne : ∀ c ∈ m, c.1 ≠ a) : Memory.wfFrom lo (m.insert a v) = true := by
  induction m generalizing lo with
  | nil => simp only [Memory.insert, Memory.wfFrom, ha, bne_iff_ne.mpr hv, decide_true, Bool.and_self]
  | cons c m ih =>
    obtain ⟨k, w⟩ := c
    simp only [Memory.wfFrom, Bool.and_eq_true, decide_eq_true_eq] at hm
    have hk : k ≠ a := hne (k, w) (by simp)
    by_cases hlt : a < k
    · simp only [Memory.insert, hlt, if_true, Memory.wfFrom, Bool.and_eq_true, decide_eq_true_eq, bne_iff_ne]
      exact ⟨⟨ha, hv⟩, ⟨by omega, by simpa using hm.1.2⟩, hm.2⟩
    · simp only [Memory.insert, hlt, if_false, Memory.wfFrom, Bool.and_eq_true, decide_eq_true_eq]
      exact ⟨hm.1, ih (k + 1) hm.2 (by omega) (fun c hc => hne c (by simp [hc]))⟩

theorem Memory.wf_write (m : Memory) (a : Nat) (v : Word) (hm : m.wf = true) : (m.write a v).wf = true := by
  unfold Memory.write
  split
  · exact Memory.wfFrom_filter _ m 0 hm
  · next hv =>
    exact Memory.wfFrom_insert _ 0 a v (Memory.wfFrom_filter _ m 0 hm) (Nat.zero_le a) hv (m.erase_ne a)

theorem Memory.wf_zeroFill (m : Memory) (lo hi : Nat) (hm : m.wf = true) : (m.zeroFill lo hi).wf = true :=
  Memory.wfFrom_filter _ m 0 hm

theorem Memory.wfFrom_ofWords (ws : List Word) (lo : Nat) : Memory.wfFrom lo (Memory.ofWords lo ws) = true := by
  induction ws generalizing lo with
  | nil => rfl
  | cons w ws ih =>
    unfold Memory.ofWords
    split
    · exact Memory.wfFrom_mono (by omega) _ (ih (lo + 1))
    · next hw => simp only [Memory.wfFrom, Nat.le_refl, bne_iff_ne.mpr hw, ih (lo + 1), decide_true, Bool.and_self]

theorem Memory.wf_ofWords (ws : List Word) : (Memory.ofWords 0 ws).wf = true := Memory.wfFrom_ofWords ws 0

theorem reset_mem_wf : State.reset.mem.wf = true := rfl

/-- Placing an instruction keeps the canonical form. -/
theorem placeWords_wf (a : Nat) (ws : List Word) (m : Memory) (hm : m.wf = true) : (placeWords a ws m).wf = true := by
  induction ws generalizing a m with
  | nil => exact hm
  | cons w ws ih => exact ih (a + 1) _ (Memory.wf_write m a w hm)

/-! ## The listed addresses -/

theorem Memory.mem_write {m : Memory} {a : Nat} {v : Word} {c : Nat × Word} (hc : c ∈ m.write a v) :
    c ∈ m ∨ c = (a, v) := by
  have insert_mem : ∀ m : Memory, c ∈ m.insert a v → c ∈ m ∨ c = (a, v) := by
    intro m
    induction m with
    | nil => intro h; right; simpa [Memory.insert] using h
    | cons d m ih =>
      obtain ⟨k, w⟩ := d
      intro h
      by_cases hlt : a < k
      · simp only [Memory.insert, hlt, if_true, List.mem_cons] at h
        rcases h with h | h | h <;> simp_all
      · simp only [Memory.insert, hlt, if_false, List.mem_cons] at h
        rcases h with h | h
        · simp [h]
        · rcases ih h with h | h <;> simp_all
  unfold Memory.write at hc
  split at hc
  · exact .inl (List.mem_filter.mp hc).1
  · rcases insert_mem _ hc with h | h
    · exact .inl (List.mem_filter.mp h).1
    · exact .inr h

theorem Memory.mem_ofWords (ws : List Word) (lo : Nat) : ∀ c ∈ Memory.ofWords lo ws, c.1 < lo + ws.length := by
  induction ws generalizing lo with
  | nil => intro c hc; cases hc
  | cons w ws ih =>
    intro c hc
    have step : ∀ c ∈ Memory.ofWords (lo + 1) ws, c.1 < lo + (w :: ws).length := by
      intro c hc
      have := ih (lo + 1) c hc
      simp only [List.length_cons]; omega
    unfold Memory.ofWords at hc
    split at hc
    · exact step c hc
    · rcases List.mem_cons.mp hc with h | h
      · subst h; simp
      · exact step c h

/-! ## The tape -/

theorem extendTape_len (a : Nat) (s : State) : (extendTape a s).len = max s.len (a + 1) := by
  unfold extendTape; split <;> simp <;> omega

theorem extendTape_memRead (a b : Nat) (s : State) : memRead (extendTape a s) b = memRead s b := by
  unfold extendTape
  split
  · simp only [memRead, Memory.read_zeroFill]
    repeat' split
    all_goals first | rfl | omega
  · rfl

theorem memWrite_len (a : Nat) (v : Word) (s : State) : (memWrite a v s).len = max s.len (a + 1) :=
  extendTape_len a s

/-- Read after write (R28, R29), for every state. -/
theorem memWrite_memRead (a b : Nat) (v : Word) (s : State) :
    memRead (memWrite a v s) b = if b = a then v else memRead s b := by
  have hlen : (memWrite a v s).len = max s.len (a + 1) := memWrite_len a v s
  by_cases hb : b = a
  · subst hb
    have : b < (memWrite b v s).len := by omega
    simp only [memRead, this, if_true]
    simp [memWrite, Memory.read_write]
  · rw [if_neg hb, ← extendTape_memRead a b s]
    simp only [memRead, memWrite, Memory.read_write, if_neg hb]

theorem extendOnRead_len (a : Nat) (s : State) :
    (extendOnRead a s).len =
      if s.params.readExtends = true ∧ a < s.params.memCapacity then max s.len (a + 1) else s.len := by
  unfold extendOnRead; split <;> simp [extendTape_len]

theorem extendOnRead_memRead (a b : Nat) (s : State) : memRead (extendOnRead a s) b = memRead s b := by
  unfold extendOnRead; split <;> simp [extendTape_memRead]

theorem extendTape_wf (a : Nat) (s : State) (h : s.mem.wf = true) : (extendTape a s).mem.wf = true := by
  unfold extendTape; split
  · exact Memory.wf_zeroFill _ _ _ h
  · exact h

theorem extendOnRead_wf (a : Nat) (s : State) (h : s.mem.wf = true) : (extendOnRead a s).mem.wf = true := by
  unfold extendOnRead; split
  · exact extendTape_wf a s h
  · exact h

theorem memWrite_wf (a : Nat) (v : Word) (s : State) (h : s.mem.wf = true) : (memWrite a v s).mem.wf = true :=
  Memory.wf_write _ _ _ (extendTape_wf a s h)

theorem extendTape_bounded (a : Nat) (s : State) (h : Safety.TapeBounded s) : Safety.TapeBounded (extendTape a s) := by
  intro c hc
  rw [extendTape_len]
  unfold extendTape at hc
  split at hc
  · have := h c (List.mem_filter.mp hc).1; omega
  · have := h c hc; omega

theorem extendOnRead_bounded (a : Nat) (s : State) (h : Safety.TapeBounded s) :
    Safety.TapeBounded (extendOnRead a s) := by
  unfold extendOnRead; split
  · exact extendTape_bounded a s h
  · exact h

theorem memWrite_bounded (a : Nat) (v : Word) (s : State) (h : Safety.TapeBounded s) :
    Safety.TapeBounded (memWrite a v s) := by
  intro c hc
  rw [memWrite_len]
  rcases Memory.mem_write hc with h' | h'
  · have := extendTape_bounded a s h c h'
    rw [extendTape_len] at this; exact this
  · subst h'; simp

end Sys2Proof.Machine
end

