-- ==== Sys2Proof/Laws/Resolver.lean ====
section
/-! SUPPORT. Laws of the arithmetic and of the operand resolver: one lemma per function that says all it can answer. -/

namespace Sys2Proof.Machine

/-! ## Arithmetic -/

theorem toInt_wrap64 (x : Int) : (wrap64 x).toInt = Safety.wrapInt x := by
  unfold wrap64 Safety.wrapInt
  rw [BitVec.toInt_ofInt, Int.bmod_def]
  simp only [Nat.reducePow]
  omega

theorem toInt_wrap64_of_isWord {x : Int} (h : IsWord x) : (wrap64 x).toInt = x := by
  obtain ⟨h1, h2⟩ := h
  rw [toInt_wrap64]
  unfold Safety.wrapInt
  omega

theorem isWord_toInt (w : Word) : IsWord w.toInt := by
  have h1 := w.le_toInt
  have h2 := w.toInt_lt
  simp only [IsWord]
  omega

/-- `fit` answers the wrapped word, which is the exact value where that fits; it faults only on a value that does not fit,
under the policy `Fault`. -/
theorem fit_eq (P : Params) (x : Int) :
    fit P x = if ¬ IsWord x ∧ P.overflowPolicy = .fault then .error .arithmeticOverflow else .ok (wrap64 x) := by
  unfold fit
  by_cases h : IsWord x
  · rw [if_pos h, if_neg (fun hc => hc.1 h)]
  · rw [if_neg h]
    cases hp : P.overflowPolicy
    · rw [if_pos ⟨h, rfl⟩]
    · rw [if_neg (fun hc => by cases hc.2)]

theorem fit_error {P : Params} {x : Int} {c : FaultCause} (h : fit P x = .error c) :
    c = .arithmeticOverflow ∧ ¬ IsWord x ∧ P.overflowPolicy = .fault := by
  rw [fit_eq] at h
  split at h
  · next hc => cases h; exact ⟨rfl, hc⟩
  · cases h

theorem toNat_of_nonneg {a : Word} (h : 0 ≤ a.toInt) : (a.toNat : Int) = a.toInt := by
  have h1 := a.toInt_eq_toNat_cond
  have h2 := a.isLt
  split at h1 <;> omega

/-! ## What resolving a read operand leaves of the state -/

/-- `t` is `s` but for the tape's length, and every word of `t` reads as in `s` (R30, R62). -/
structure TapeExtended (s t : State) : Prop where
  ip     : t.ip = s.ip
  rb     : t.rb = s.rb
  iq     : t.iq = s.iq
  ob     : t.ob = s.ob
  st     : t.st = s.st
  fr     : t.fr = s.fr
  params : t.params = s.params
  read   : ∀ n, memRead t n = memRead s n
  len    : s.len ≤ t.len
  fixed  : s.params.readExtends = false → t = s
  cap    : s.len ≤ s.params.memCapacity → t.len ≤ s.params.memCapacity
  wf     : s.mem.wf = true → t.mem.wf = true
  bound  : Safety.TapeBounded s → Safety.TapeBounded t

theorem TapeExtended.refl (s : State) : TapeExtended s s :=
  ⟨rfl, rfl, rfl, rfl, rfl, rfl, rfl, fun _ => rfl, Nat.le_refl _, fun _ => rfl, id, id, id⟩

theorem TapeExtended.trans {s t u : State} (h : TapeExtended s t) (k : TapeExtended t u) : TapeExtended s u :=
  { ip := k.ip.trans h.ip, rb := k.rb.trans h.rb, iq := k.iq.trans h.iq, ob := k.ob.trans h.ob
    st := k.st.trans h.st, fr := k.fr.trans h.fr, params := k.params.trans h.params
    read := fun n => (k.read n).trans (h.read n)
    len := Nat.le_trans h.len k.len
    fixed := fun hr => (k.fixed (by rw [h.params]; exact hr)).trans (h.fixed hr)
    cap := fun hc => by
      have := k.cap (by rw [h.params]; exact h.cap hc)
      rwa [h.params] at this
    wf := fun hw => k.wf (h.wf hw)
    bound := fun hb => k.bound (h.bound hb) }

theorem extendOnRead_extended (a : Nat) (s : State) : TapeExtended s (extendOnRead a s) :=
  { ip := by simp, rb := by simp, iq := by simp, ob := by simp, st := by simp, fr := by simp, params := by simp
    read := fun n => extendOnRead_memRead a n s
    len := by rw [extendOnRead_len]; split <;> omega
    fixed := fun h => by simp [extendOnRead, h]
    cap := fun h => by rw [extendOnRead_len]; split <;> omega
    wf := extendOnRead_wf a s
    bound := extendOnRead_bounded a s }

/-- The state after a read operand is resolved. -/
def Resolved.state : Resolved → State
  | .ok _ s => s
  | .fault _ s => s

/-! ## What the resolver answers -/

/-- All that `readOperand` can answer. -/
theorem readOperand_cases (p : Param) (s : State) :
    (p.mode = .immediate ∧ readOperand p s = .ok p.raw s) ∨
    (∃ a : Word, 0 ≤ a.toInt ∧ readOperand p s = .ok (memRead s a.toNat) (extendOnRead a.toNat s) ∧
      (p.mode = .position ∧ a = p.raw ∨ p.mode = .relative ∧ effRel p.raw s = .ok a)) ∨
    (∃ a : Word, a.toInt < 0 ∧ readOperand p s = .fault .negativeAddress s ∧
      (p.mode = .position ∧ a = p.raw ∨ p.mode = .relative ∧ effRel p.raw s = .ok a)) ∨
    (p.mode = .relative ∧ effRel p.raw s = .error .arithmeticOverflow ∧
      readOperand p s = .fault .arithmeticOverflow s) := by
  have at_ : ∀ a : Word, (0 ≤ a.toInt ∧ readAt a s = .ok (memRead s a.toNat) (extendOnRead a.toNat s)) ∨
      (a.toInt < 0 ∧ readAt a s = .fault .negativeAddress s) := by
    intro a
    unfold readAt
    split
    · next h => exact .inr ⟨h, rfl⟩
    · next h => exact .inl ⟨by omega, rfl⟩
  rcases hm : p.mode with _ | _ | _
  · have e : readOperand p s = readAt p.raw s := by unfold readOperand; rw [hm]
    rcases at_ p.raw with ⟨h, h'⟩ | ⟨h, h'⟩
    · exact .inr (.inl ⟨p.raw, h, e.trans h', .inl ⟨rfl, rfl⟩⟩)
    · exact .inr (.inr (.inl ⟨p.raw, h, e.trans h', .inl ⟨rfl, rfl⟩⟩))
  · exact .inl ⟨rfl, by unfold readOperand; rw [hm]⟩
  · rcases he : effRel p.raw s with c | a
    · obtain ⟨hc, -⟩ := fit_error he
      subst hc
      exact .inr (.inr (.inr ⟨rfl, rfl, by unfold readOperand; rw [hm]; simp only [he]⟩))
    · have e : readOperand p s = readAt a s := by unfold readOperand; rw [hm]; simp only [he]
      rcases at_ a with ⟨h, h'⟩ | ⟨h, h'⟩
      · exact .inr (.inl ⟨a, h, e.trans h', .inr ⟨rfl, rfl⟩⟩)
      · exact .inr (.inr (.inl ⟨a, h, e.trans h', .inr ⟨rfl, rfl⟩⟩))

/-- A read operand changes nothing but the tape's length. -/
theorem readOperand_extended (p : Param) (s : State) : TapeExtended s (readOperand p s).state := by
  rcases readOperand_cases p s with ⟨-, h⟩ | ⟨a, -, h, -⟩ | ⟨a, -, h, -⟩ | ⟨-, -, h⟩ <;> rw [h]
  · exact TapeExtended.refl s
  · exact extendOnRead_extended a.toNat s
  · exact TapeExtended.refl s
  · exact TapeExtended.refl s

theorem readOperand_ok_extended {p : Param} {s t : State} {v : Word} (h : readOperand p s = .ok v t) :
    TapeExtended s t := by
  have := readOperand_extended p s
  rwa [h] at this

/-- All that `writeAddr` can answer with an address: it is the raw word or the relative address, below `MEM_CAPACITY`. -/
theorem writeAddr_ok {p : Param} {s : State} {d : Nat} (h : writeAddr p s = .ok d) :
    d < s.params.memCapacity ∧ ∃ a : Word, 0 ≤ a.toInt ∧ d = a.toNat ∧
      (p.mode = .position ∧ a = p.raw ∨ p.mode = .relative ∧ effRel p.raw s = .ok a) := by
  have at_ : ∀ a : Word, checkWrite a s = .ok d → d < s.params.memCapacity ∧ 0 ≤ a.toInt ∧ d = a.toNat := by
    intro a ha
    unfold checkWrite at ha
    split at ha
    · cases ha
    · split at ha
      · cases ha
      · cases ha
        exact ⟨by omega, by omega, rfl⟩
  unfold writeAddr at h
  rcases hm : p.mode with _ | _ | _ <;> rw [hm] at h
  · obtain ⟨h1, h2, h3⟩ := at_ _ h
    exact ⟨h1, _, h2, h3, .inl ⟨rfl, rfl⟩⟩
  · cases h
  · rcases he : effRel p.raw s with c | a <;> simp only [he] at h
    · cases h
    · obtain ⟨h1, h2, h3⟩ := at_ _ h
      exact ⟨h1, _, h2, h3, .inr ⟨rfl, rfl⟩⟩

/-- `writeAddr` reads only `RB` and the parameters. -/
theorem writeAddr_congr {p : Param} {s t : State} (hrb : t.rb = s.rb) (hp : t.params = s.params) :
    writeAddr p t = writeAddr p s := by
  simp only [writeAddr, checkWrite, effRel, hrb, hp]

end Sys2Proof.Machine
end

