-- ==== Sys2Proof/Laws/Exec.lean ====
section
/-! SUPPORT. For each shared shape of a meaning, all that it can answer: the next state of its effect, or fault entry from
a state that differs from the first only in the tape's length. Every answer is a next state. -/

namespace Sys2Proof.Machine

/-- Fault entry reached from `s` after reads that may have lengthened the tape. -/
def Faulted (s t : State) : Prop := ∃ c s', TapeExtended s s' ∧ t = takeFault c s'

theorem andThen_cases (p : Param) (s : State) (k : Word → State → Result) :
    (∃ v s1, readOperand p s = .ok v s1 ∧ TapeExtended s s1 ∧ (readOperand p s).andThen k = k v s1) ∨
    (∃ t, Faulted s t ∧ (readOperand p s).andThen k = .next t) := by
  have h := readOperand_extended p s
  rcases hr : readOperand p s with ⟨v, s1⟩ | ⟨c, s1⟩ <;> rw [hr] at h
  · exact .inl ⟨v, s1, rfl, h, rfl⟩
  · exact .inr ⟨_, ⟨c, s1, h, rfl⟩, rfl⟩

theorem orFault_cases {α : Type} (e : Except FaultCause α) (s : State) (k : α → Result) :
    (∃ v, e = .ok v ∧ orFault e s k = k v) ∨ (∃ c, e = .error c ∧ orFault e s k = .next (takeFault c s)) := by
  rcases e with c | v
  · exact .inr ⟨c, rfl, rfl⟩
  · exact .inl ⟨v, rfl, rfl⟩

/-- ADD, MUL, LT, EQ. -/
theorem execBinary_cases (f : Params → Word → Word → Except FaultCause Word) (a b c : Param) (s : State) :
    (∃ x s1 y s2 d r, readOperand a s = .ok x s1 ∧ readOperand b s1 = .ok y s2 ∧ writeAddr c s = .ok d ∧
      f s.params x y = .ok r ∧ TapeExtended s s2 ∧ execBinary f a b c s = .next (advance 4 (memWrite d r s2))) ∨
    (∃ t, Faulted s t ∧ execBinary f a b c s = .next t) := by
  unfold execBinary
  rcases andThen_cases a s _ with ⟨x, s1, ha, e1, h⟩ | ⟨t, ft, h⟩
  · rw [h]
    rcases andThen_cases b s1 _ with ⟨y, s2, hb, e2, h⟩ | ⟨t, ⟨cc, s', e, ht⟩, h⟩
    · rw [h]
      have e12 := e1.trans e2
      rcases orFault_cases (writeAddr c s) s2 _ with ⟨d, hd, h⟩ | ⟨cc, -, h⟩
      · rw [h]
        rcases orFault_cases (f s.params x y) s2 _ with ⟨r, hr, h⟩ | ⟨cc, -, h⟩
        · exact .inl ⟨x, s1, y, s2, d, r, ha, hb, hd, hr, e12, h⟩
        · exact .inr ⟨_, ⟨cc, s2, e12, rfl⟩, h⟩
      · exact .inr ⟨_, ⟨cc, s2, e12, rfl⟩, h⟩
    · exact .inr ⟨t, ⟨cc, s', e1.trans e, ht⟩, h⟩
  · exact .inr ⟨t, ft, h⟩

/-- ARB. -/
theorem execArb_cases (a : Param) (s : State) :
    (∃ x s1 r, readOperand a s = .ok x s1 ∧ add64 s.params s.rb x = .ok r ∧ TapeExtended s s1 ∧
      execArb a s = .next (advance 2 { s1 with rb := r })) ∨
    (∃ t, Faulted s t ∧ execArb a s = .next t) := by
  unfold execArb
  rcases andThen_cases a s _ with ⟨x, s1, ha, e1, h⟩ | ⟨t, ft, h⟩
  · rw [h]
    rcases orFault_cases (add64 s1.params s1.rb x) s1 _ with ⟨r, hr, h⟩ | ⟨c, -, h⟩
    · rw [e1.params, e1.rb] at hr
      exact .inl ⟨x, s1, r, ha, hr, e1, h⟩
    · exact .inr ⟨_, ⟨c, s1, e1, rfl⟩, h⟩
  · exact .inr ⟨t, ft, h⟩

/-- IN. -/
theorem execIn_cases (a : Param) (s : State) :
    (∃ d v rest, writeAddr a s = .ok d ∧ s.iq = v :: rest ∧
      execIn a s = .next (advance 2 (memWrite d v { s with iq := rest }))) ∨
    (∃ d, writeAddr a s = .ok d ∧ s.iq = [] ∧ execIn a s = .next (block s)) ∨
    (∃ c, writeAddr a s = .error c ∧ execIn a s = .next (takeFault c s)) := by
  unfold execIn
  rcases orFault_cases (writeAddr a s) s _ with ⟨d, hd, h⟩ | ⟨c, hc, h⟩
  · rw [h]
    rcases hq : s.iq with _ | ⟨v, rest⟩
    · exact .inr (.inl ⟨d, hd, rfl, rfl⟩)
    · exact .inl ⟨d, v, rest, hd, rfl, rfl⟩
  · exact .inr (.inr ⟨c, hc, h⟩)

/-- OUT. -/
theorem execOut_cases (a : Param) (s : State) :
    (∃ x s1, readOperand a s = .ok x s1 ∧ TapeExtended s s1 ∧
      execOut a s = .next (advance 2 { s1 with ob := s1.ob ++ [x] })) ∨
    (∃ t, Faulted s t ∧ execOut a s = .next t) := by
  unfold execOut
  rcases andThen_cases a s _ with ⟨x, s1, ha, e1, h⟩ | ⟨t, ft, h⟩
  · exact .inl ⟨x, s1, ha, e1, h⟩
  · exact .inr ⟨t, ft, h⟩

/-- JNZ, JZ. -/
theorem execJump_cases (taken : Word → Bool) (a b : Param) (s : State) :
    (∃ x s1 t s2, readOperand a s = .ok x s1 ∧ readOperand b s1 = .ok t s2 ∧ TapeExtended s s2 ∧
      ((taken x = true ∧ 0 ≤ t.toInt ∧ execJump taken a b s = .next { s2 with ip := t }) ∨
       (taken x = false ∧ execJump taken a b s = .next (advance 3 s2)))) ∨
    (∃ t, Faulted s t ∧ execJump taken a b s = .next t) := by
  unfold execJump
  rcases andThen_cases a s _ with ⟨x, s1, ha, e1, h⟩ | ⟨t, ft, h⟩
  · rw [h]
    rcases andThen_cases b s1 _ with ⟨t, s2, hb, e2, h⟩ | ⟨t, ⟨c, s', e, ht⟩, h⟩
    · rw [h]
      have e12 := e1.trans e2
      by_cases hx : taken x = true
      · rw [if_pos hx]
        unfold jumpTo
        by_cases hn : t.toInt < 0
        · rw [if_pos hn]
          exact .inr ⟨_, ⟨_, s2, e12, rfl⟩, rfl⟩
        · rw [if_neg hn]
          exact .inl ⟨x, s1, t, s2, ha, hb, e12, .inl ⟨hx, by omega, rfl⟩⟩
      · rw [if_neg hx]
        exact .inl ⟨x, s1, t, s2, ha, hb, e12, .inr ⟨by simpa using hx, rfl⟩⟩
    · exact .inr ⟨t, ⟨c, s', e1.trans e, ht⟩, h⟩
  · exact .inr ⟨t, ft, h⟩

end Sys2Proof.Machine
end

