-- ==== Sys2Proof/Laws/Instances.lean ====
section
/-! SUPPORT. What writing one place of the instances does to every place. -/

namespace Sys2Proof.Machine

@[simp] theorem instanceAt_setInstance (insts : Instances) (k j : Nat) (inst : Option State) :
    instanceAt (setInstance insts k inst) j = if j = k then inst else instanceAt insts j := by
  induction insts, k, inst using setInstance.induct generalizing j <;> cases j <;> simp_all [setInstance, instanceAt]

end Sys2Proof.Machine
end

