-- ==== Sys2Proof/Laws/PerInstr.lean ====
section
/-! SUPPORT. The per-instruction family of LAWS.json. EncodingShape: an instruction is `1 + arity` words (R42), and its
opcode word is a non-negative word below 100000 whose low two digits are its opcode (R43, R44). -/

namespace Sys2Proof.Laws

/-- The encoding of `i` has `1 + arity` words, the first of them an opcode word of the form of R43. -/
def EncodingShape.Statement (i : Instr) : Prop :=
  (encode i).length = 1 + i.opcode.arity ∧
  ((encode i).getD 0 0).toNat % 100 = i.opcode.value ∧ ((encode i).getD 0 0).toNat < 100000

/-- The opcode word of R52 has no carry between its fields. -/
theorem encodeOpcode_shape (op : Opcode) (m1 m2 m3 : Mode) :
    (encodeOpcode op m1 m2 m3).toNat % 100 = op.value ∧ (encodeOpcode op m1 m2 m3).toNat < 100000 := by
  cases op <;> cases m1 <;> cases m2 <;> cases m3 <;> decide

theorem EncodingShape.add (a b c : Param) : EncodingShape.Statement (.add a b c) := ⟨rfl, encodeOpcode_shape _ _ _ _⟩
theorem EncodingShape.mul (a b c : Param) : EncodingShape.Statement (.mul a b c) := ⟨rfl, encodeOpcode_shape _ _ _ _⟩
theorem EncodingShape.inp (a : Param) (m2 m3 : Mode) : EncodingShape.Statement (.inp a m2 m3) :=
  ⟨rfl, encodeOpcode_shape _ _ _ _⟩
theorem EncodingShape.out (a : Param) (m2 m3 : Mode) : EncodingShape.Statement (.out a m2 m3) :=
  ⟨rfl, encodeOpcode_shape _ _ _ _⟩
theorem EncodingShape.jnz (a b : Param) (m3 : Mode) : EncodingShape.Statement (.jnz a b m3) :=
  ⟨rfl, encodeOpcode_shape _ _ _ _⟩
theorem EncodingShape.jz (a b : Param) (m3 : Mode) : EncodingShape.Statement (.jz a b m3) :=
  ⟨rfl, encodeOpcode_shape _ _ _ _⟩
theorem EncodingShape.lt (a b c : Param) : EncodingShape.Statement (.lt a b c) := ⟨rfl, encodeOpcode_shape _ _ _ _⟩
theorem EncodingShape.eq (a b c : Param) : EncodingShape.Statement (.eq a b c) := ⟨rfl, encodeOpcode_shape _ _ _ _⟩
theorem EncodingShape.arb (a : Param) (m2 m3 : Mode) : EncodingShape.Statement (.arb a m2 m3) :=
  ⟨rfl, encodeOpcode_shape _ _ _ _⟩
theorem EncodingShape.halt (m1 m2 m3 : Mode) : EncodingShape.Statement (.halt m1 m2 m3) :=
  ⟨rfl, encodeOpcode_shape _ _ _ _⟩

end Sys2Proof.Laws
end

