-- ==== Sys2Proof/Tests/Slice0.lean ====
section
/-! SUPPORT. Tests with expected results from spec/95_test_vectors.md (the vector is named) or worked out by hand from a rule,
and for each obligation with hypotheses a theorem that concrete data meet all of them together. -/

namespace Sys2Proof.Tests

open Sys2Proof Sys2Proof.Machine Sys2Proof.Safety

/-! ## Helpers -/

/-- The next state of an answer. -/
def after : Result → Option State
  | .next s => some s
  | .fault _ => none
  | .refused _ => none

/-- What `f` reads of the next state. -/
def see {α : Type} (r : Result) (f : State → α) : Option α := (after r).map f

/-- A program loaded under the reference parameters. -/
def prog (P : List Word) : State := loaded Params.reference P

/-- A program loaded under `OVERFLOW_POLICY = Wrap`. -/
def progWrap (P : List Word) : State := loaded { Params.reference with overflowPolicy := .wrap } P

/-- A program loaded with a tape of 16 words at most, and `READ_EXTENDS`. -/
def progSmall (P : List Word) : State := loaded { memCapacity := 16, readExtends := true, overflowPolicy := .fault } P

def pos (x : Word) : Param := ⟨.position, x⟩
def imm (x : Word) : Param := ⟨.immediate, x⟩
def rel (x : Word) : Param := ⟨.relative, x⟩

/-- The largest word. -/
def maxWord : Word := 9223372036854775807

/-- The smallest word. -/
def minWord : Word := -9223372036854775808

/-- Status and fault record, all that may be read after a fault (U1). -/
def seeFault (s : State) : Status × Option FaultRecord := (s.st, s.fr)

/-! ## WellFormed: an ill-formed instruction for each instruction with a write operand -/

theorem test_illFormed_add : (Instr.add (pos 1) (pos 2) (imm 3)).wellFormed = false := by decide
theorem test_illFormed_mul : (Instr.mul (pos 1) (pos 2) (imm 3)).wellFormed = false := by decide
theorem test_illFormed_inp : (Instr.inp (imm 3) .position .position).wellFormed = false := by decide
theorem test_illFormed_lt : (Instr.lt (pos 1) (pos 2) (imm 3)).wellFormed = false := by decide
theorem test_illFormed_eq : (Instr.eq (pos 1) (pos 2) (imm 3)).wellFormed = false := by decide
theorem test_wellFormed_out : (Instr.out (imm 3) .immediate .immediate).wellFormed = true := by decide

/-! ## Decoding: words written out from R42 to R45 -/

theorem test_decode_add : decodeWords [1101, 2, 3, 5] = .ok (.add (imm 2) (imm 3) (pos 5)) := by decide
theorem test_decode_mul : decodeWords [21002, 4, 3, 4] = .ok (.mul (pos 4) (imm 3) (rel 4)) := by decide
theorem test_decode_inp : decodeWords [203, -5] = .ok (.inp (rel (-5)) .position .position) := by decide
theorem test_decode_out : decodeWords [104, 1125899906842624] = .ok (.out (imm 1125899906842624) .position .position) := by
  decide
theorem test_decode_jnz : decodeWords [2005, 3, 4] = .ok (.jnz (pos 3) (rel 4) .position) := by decide
theorem test_decode_jz : decodeWords [11206, 5, 9] = .ok (.jz (rel 5) (imm 9) .immediate) := by decide
theorem test_decode_lt : decodeWords [107, 0, 30, 32] = .ok (.lt (imm 0) (pos 30) (pos 32)) := by decide
theorem test_decode_eq : decodeWords [1108, 7, -7, 5] = .ok (.eq (imm 7) (imm (-7)) (pos 5)) := by decide
theorem test_decode_arb : decodeWords [109, -5] = .ok (.arb (imm (-5)) .position .position) := by decide
theorem test_decode_halt : decodeWords [22299] = .ok (.halt .relative .relative .relative) := by decide
/-- Words that follow the list read as 0 (R46). -/
theorem test_decode_short : decodeWords [1, 9] = .ok (.add (pos 9) (pos 0) (pos 0)) := by decide
theorem test_decodeTableWord : decodeTableWord 8 4 = some (.out (pos 0) .position .position) := by decide
/-- The second word of a table number starts at bit 64. -/
theorem test_decodeTableWord_second : decodeTableWord 128 (104 + 7 * 2 ^ 64) = some (.out (imm 7) .position .position) := by
  decide

/-! ## One step of each instruction -/

theorem test_add : see (step (prog [1101, 2, 3, 5, 99, 0])) (fun t => (memRead t 5, t.ip)) = some (5, 4) := by decide
theorem test_add_overflow : see (step (prog [1101, maxWord, 1, 5, 99, 0])) seeFault =
    some (.faulted, some { kind := .arithmeticOverflow, ip := 0, value := none }) := by decide
theorem test_mul : see (step (prog [1102, -3, 4, 5, 99, 0])) (fun t => (memRead t 5, t.ip)) = some (-12, 4) := by decide
theorem test_mul_wraps : see (step (progWrap [1102, minWord, -1, 5, 99, 0])) (fun t => memRead t 5) = some minWord := by
  decide
theorem test_inp : see (step { prog [3, 3, 99, 7] with iq := [5, 6] }) (fun t => (memRead t 3, t.iq, t.ip)) =
    some (5, [6], 2) := by decide
theorem test_inp_blocks : see (step (prog [3, 5, 99])) (fun t => (t.st, t.ip, t.len)) = some (.blocked, 0, 3) := by decide
theorem test_out : see (step (prog [104, -7, 99])) (fun t => (t.ob, t.ip)) = some ([-7], 2) := by decide
theorem test_out_relative : see (step { prog [204, -3, 99, 0, 0, 0, 0, 77] with rb := 10 }) (fun t => t.ob) =
    some [77] := by decide
theorem test_jnz_taken : see (step (prog [1105, -1, 7, 0, 0, 0, 0, 99])) State.ip = some 7 := by decide
theorem test_jnz_notTaken : see (step (prog [1105, 0, -1, 99])) State.ip = some 3 := by decide
theorem test_jz_taken : see (step (prog [1106, 0, 9])) State.ip = some 9 := by decide
theorem test_jz_negative : see (step (prog [1106, 0, -1, 99])) seeFault =
    some (.faulted, some { kind := .negativeAddress, ip := 0, value := none }) := by decide
theorem test_lt : see (step (prog [1107, minWord, maxWord, 5, 99, 0])) (fun t => memRead t 5) = some 1 := by decide
theorem test_lt_equal : see (step (prog [1107, 0, 0, 5, 99, 7])) (fun t => memRead t 5) = some 0 := by decide
theorem test_eq : see (step (prog [1108, -7, -7, 5, 99, 0])) (fun t => memRead t 5) = some 1 := by decide
/-- The source is also the destination. -/
theorem test_eq_alias : see (step (prog [8, 0, 0, 0, 99])) (fun t => memRead t 0) = some 1 := by decide
/-- A Relative operand of ARB uses the old `RB`. -/
theorem test_arb_relative : see (step { prog [209, -8, 40] with rb := 10 }) (fun t => (t.rb, t.ip)) = some (50, 2) := by
  decide
theorem test_arb_overflow : see (step { prog [109, 1] with rb := maxWord }) seeFault =
    some (.faulted, some { kind := .arithmeticOverflow, ip := 0, value := none }) := by decide
theorem test_halt : see (step (prog [1199])) (fun t => (t.st, t.ip)) = some (.halted, 1) := by decide

/-! ## Faults, tape, fetch -/

/-- D-19: the digit of an absent parameter is checked. -/
theorem test_badMode : see (step (prog [30099])) seeFault =
    some (.faulted, some { kind := .invalidParameterMode, ip := 0, value := some 3 }) := by decide
/-- The empty program runs off the end at once (R63, R107). -/
theorem test_emptyProgram : see (step State.reset) seeFault =
    some (.faulted, some { kind := .illegalOpcode, ip := 0, value := some 0 }) := by decide
theorem test_writeExtends : see (step (prog [1101, 1, 1, 16, 99])) (fun t => (t.len, memRead t 16)) = some (17, 2) := by
  decide
theorem test_capacity : see (step (progSmall [1101, 1, 1, 16, 99])) seeFault =
    some (.faulted, some { kind := .memoryCapacityExceeded, ip := 0, value := none }) := by decide
theorem test_readExtends : see (step (progSmall [4, 15, 99])) (fun t => (t.len, t.ob)) = some (16, [0]) := by decide
theorem test_writeToImmediate : see (step { prog [103, 0, 99] with iq := [] }) seeFault =
    some (.faulted, some { kind := .writeToImmediate, ip := 0, value := none }) := by decide
theorem test_withFetchWord : see (step (State.reset.withFetchWord 8 4)) (fun t => (t.ob, t.ip)) = some ([4], 2) := by decide

/-! ## Host commands and assembler -/

/-- The source's first fixture: `[1,0,0,0,99]` halts with memory `[2,0,0,0,99]`. -/
theorem test_run : (run 2 (prog [1, 0, 0, 0, 99])).map (fun x => (x.1, readMemory x.2)) =
    some (.ok, [2, 0, 0, 0, 99]) := by decide
theorem test_loadRefused :
    hostCommand 0 (.load { memCapacity := 2, readExtends := false, overflowPolicy := .fault } [1, 2, 3]) none =
      some (.loadRefused, none) := by decide
/-- `l: ADD 5,[l],[rb-4];x` is 21001 with digits 1, 0, 2 and the raw words 5, 0, -4. -/
theorem test_assemble :
    assembleText ['l', ':', ' ', 'a', 'd', 'd', ' ', '5', ',', '[', 'l', ']', ',', '[', 'r', 'b', '-', '4', ']', ';', 'x'] =
      .ok [20101, 5, 0, -4] := by decide
theorem test_assemble_refuses : assembleText ['i', 'n', ' ', '5'] = .error .immediateDestination := by decide

/-! ## Witnesses: data that meet an obligation's hypotheses -/

theorem witness_EncodeOfDecode :
    decodeOpcodeWord 22299 = .ok { opcode := .halt, m1 := .relative, m2 := .relative, m3 := .relative } ∧
    decodeOpcodeWord 1 = .ok { opcode := .add, m1 := .position, m2 := .position, m3 := .position } := by decide

theorem witness_LegalWordsExactly : (∃ d, decodeOpcodeWord 22299 = .ok d) ∧
    decodeOpcodeWord 22399 = .error (.invalidParameterMode 3) := ⟨⟨_, rfl⟩, by decide⟩

theorem witness_IllegalWordsExactly :
    decodeOpcodeWord (-1) = .error (.illegalOpcode (-1)) ∧
    decodeOpcodeWord 10 = .error (.illegalOpcode 10) ∧
    decodeOpcodeWord 100099 = .error (.illegalOpcode 100099) ∧
    decodeOpcodeWord 99999 = .error (.invalidParameterMode 9) ∧
    decodeOpcodeWord 301 = .error (.invalidParameterMode 3) ∧
    decodeOpcodeWord 3001 = .error (.invalidParameterMode 3) ∧
    decodeOpcodeWord 30001 = .error (.invalidParameterMode 3) := by decide

theorem witness_MemWriteStoresAndExtends :
    (prog [99]).mem.wf = true ∧ (prog [99]).ip.toNat + 0 = 0 ∧ (prog [99]).ip.toNat + 1 = 1 := by decide

theorem witness_TapeNeverShrinks :
    see (exec (.add (imm 2) (imm 3) (pos 5)) (prog [])) (fun t => t.st) = some .running ∧
    readOperand (pos 0) (prog [99]) = .ok 99 (prog [99]) ∧
    (hostCommand 1 .run (some (prog [99]))).map (fun x => x.2.map State.st) = some (some .halted) := by decide

theorem witness_ReadOperandByMode :
    operandFault (prog []) false (pos (-1)) = some .negativeAddress ∧
    operandFault (prog []) false (rel (-1)) = some .negativeAddress ∧
    operandFault { prog [] with rb := maxWord } false (rel 1) = some .arithmeticOverflow ∧
    operandFault { progWrap [] with rb := maxWord } false (rel 1) = some .negativeAddress ∧
    operandFault (prog []) false (pos 0) = none ∧
    operandFault (progSmall []) false (pos 16) = none ∧
    operandFault { prog [] with rb := maxWord } false (rel 0) = none ∧
    operandFault (prog []) false (imm (-1)) = none := by decide

theorem witness_WriteAddrByMode :
    operandFault (prog []) true (imm 0) = some .writeToImmediate ∧
    operandFault { prog [] with rb := minWord } true (rel (-1)) = some .arithmeticOverflow ∧
    operandFault (prog []) true (pos (-1)) = some .negativeAddress ∧
    operandFault (progSmall []) true (pos 16) = some .memoryCapacityExceeded ∧
    operandFault (progSmall []) true (pos 15) = none ∧
    operandFault (prog []) true (pos maxWord) = none := by decide

theorem witness_AddResult :
    firstFault (.add (imm maxWord) (imm 0) (pos 0)) (prog [99]) = none ∧
    firstFault (.add (imm maxWord) (imm 1) (rel 0)) (progWrap [99]) = none := by decide

theorem witness_MulResult :
    firstFault (.mul (imm minWord) (imm 1) (pos 0)) (prog [99]) = none ∧
    firstFault (.mul (imm minWord) (imm (-1)) (rel 0)) (progWrap [99]) = none := by decide

theorem witness_LessThanResult : firstFault (.lt (imm minWord) (imm maxWord) (pos 0)) (prog [99]) = none := by decide

theorem witness_EqualResult : firstFault (.eq (pos 0) (imm 99) (rel 15)) (progSmall [99]) = none := by decide

theorem witness_AdjustRelativeBaseResult :
    firstFault (.arb (imm maxWord) .position .position) (prog [99]) = none ∧
    firstFault (.arb (imm 1) .position .position) { progWrap [99] with rb := maxWord } = none := by decide

theorem witness_InputResult : firstFault (.inp (pos 15) .position .position) (addInput 7 (progSmall [])) = none ∧
    (addInput 7 (progSmall [])).iq = 7 :: [] := by decide

theorem witness_InputBlocks : firstFault (.inp (pos 0) .immediate .relative) (prog []) = none ∧ (prog []).iq = [] := by decide

theorem witness_OutputResult : firstFault (.out (pos 15) .position .position) (progSmall []) = none := by decide

theorem witness_JumpNonzeroResult :
    firstFault (.jnz (imm (-1)) (imm 0) .position) (prog []) = none ∧
    firstFault (.jnz (imm 0) (imm (-1)) .position) (prog []) = none := by decide

theorem witness_JumpZeroResult :
    firstFault (.jz (imm 0) (imm maxWord) .position) (prog []) = none ∧
    firstFault (.jz (imm 1) (imm (-1)) .position) (prog []) = none := by decide

theorem witness_FirstFaultIsTaken :
    firstFault (.add (pos (-1)) (imm 0) (imm 0)) (prog []) = some .negativeAddress ∧
    firstFault (.add (imm maxWord) (imm 1) (imm 0)) (prog []) = some .writeToImmediate ∧
    firstFault (.mul (imm maxWord) (imm 2) (pos 0)) (prog []) = some .arithmeticOverflow ∧
    firstFault (.inp (pos 16) .position .position) (progSmall []) = some .memoryCapacityExceeded ∧
    firstFault (.jnz (imm 1) (imm (-1)) .position) (prog []) = some .negativeAddress := by decide

theorem witness_NoFaultWithoutCause : (prog [3, 0]).st = .running ∧
    firstFault (.inp (pos 0) .position .position) (prog [3, 0]) = none := by decide

theorem witness_DecodeFaultIsTaken : (prog [98]).st = .running ∧
    fetch (prog [98]) = .error (.illegalOpcode 98) ∧ fetch (prog [90004]) = .error (.invalidParameterMode 9) ∧
    fetch (prog [301]) = .error (.invalidParameterMode 3) := by decide

theorem witness_RunningOffTheEndFaults : ({ prog [99] with ip := 1 } : State).st = .running ∧
    ({ prog [99] with ip := 1 } : State).len ≤ ({ prog [99] with ip := 1 } : State).ip.toNat := by decide

theorem witness_PolicyFaultsOnlyUnderTheirPolicy :
    (prog [1101, maxWord, 1, 5]).st = .running ∧
    see (step (prog [1101, maxWord, 1, 5])) seeFault =
      some (.faulted, some { kind := .arithmeticOverflow, ip := 0, value := none }) ∧
    see (step (progSmall [1101, 1, 1, 16])) seeFault =
      some (.faulted, some { kind := .memoryCapacityExceeded, ip := 0, value := none }) := by decide

theorem witness_StoringAluFrame :
    see (exec (.add (imm 1) (imm 2) (pos 0)) (prog [99])) State.st = some .running ∧
    see (exec (.mul (imm 1) (imm 2) (pos 9)) (prog [99])) State.st = some .running ∧
    see (exec (.lt (imm 1) (imm 2) (rel 0)) (prog [99])) State.st = some .running ∧
    see (exec (.eq (pos 1) (imm 2) (pos 0)) (prog [99])) State.st = some .running ∧
    (prog [99]).params.readExtends = false ∧ writeAddr (pos 0) (prog [99]) = .ok 0 ∧ 0 < (prog [99]).len := by decide

theorem witness_InputFrame :
    see (exec (.inp (pos 0) .position .position) (addInput 7 (prog [99]))) (fun t => (t.st, t.iq)) = some (.running, []) ∧
    see (exec (.inp (pos 0) .position .position) (prog [99])) State.st = some .blocked := by decide

theorem witness_NonStoringFrame :
    (Instr.out (pos 9) .position .position).writeOperand = none ∧
    see (exec (.out (pos 9) .position .position) (prog [99])) State.st = some .running ∧
    see (exec (.jnz (imm 1) (imm 9) .position) (prog [99])) State.st = some .running ∧
    see (exec (.jz (imm 1) (imm 9) .position) (prog [99])) State.st = some .running ∧
    see (exec (.arb (imm 1) .position .position) (prog [99])) State.st = some .running ∧
    see (exec (.halt .position .position .position) (prog [99])) State.st = some .halted := by decide

theorem witness_StepRunsDecodedInstruction : (prog [104, 7, 99]).st = .running ∧
    decodeWords [104, 7] = .ok (.out (imm 7) .position .position) ∧
    decodeWords [104, 7, 99] = .ok (.out (imm 7) .position .position) ∧
    ∀ k, k < 4 → memRead (prog [104, 7, 99]) ((prog [104, 7, 99]).ip.toNat + k) = [104, 7, 99].getD k 0 := by decide

theorem witness_StepOnlyWhileRunning : ({ prog [99] with st := .halted } : State).st ≠ .running ∧
    ({ prog [3, 0] with st := .blocked } : State).st ≠ .running := by decide

theorem witness_RelativeBaseOnlyByArb :
    see (step (prog [109, 5])) (fun t => (t.st, t.rb)) = some (.running, 5) ∧ (prog [109, 5]).rb ≠ 5 := by decide

theorem witness_ParametersNeverChange :
    see (step (progSmall [99])) State.st = some .halted ∧
    (hostCommand 1 (.load Params.reference []) (some (progSmall [99]))).map (fun x => x.2.map State.params) =
      some (some { memCapacity := 16, readExtends := true, overflowPolicy := .fault }) := by decide

theorem witness_StatusTransitions :
    see (step { prog [99] with st := .halted }) State.st = some .halted ∧
    see (step (prog [22299])) State.st = some .halted ∧
    see (step (prog [3, 0])) State.st = some .blocked ∧
    see (step (prog [103, 0])) State.st = some .faulted ∧
    see (step (prog [0])) State.st = some .faulted ∧
    see (step (prog [104, 0])) State.st = some .running := by decide

theorem witness_BlockHasNoEffect : (prog [3, 0]).st = .running ∧ see (step (prog [3, 0])) State.st = some .blocked ∧
    run 1 (prog [3, 0]) = some (.blockedOnInput 0, { prog [3, 0] with st := .blocked }) ∧
    (hostCommand 0 (.addInput 7) (some { prog [3, 0] with st := .blocked })).map (fun x => x.2.map State.st) =
      some (some .blocked) := by decide

theorem witness_StillEmptyBlocksAgain :
    (popOutput { prog [3, 0] with st := .blocked, ob := [7] }).2.st = .blocked ∧
    (popOutput { prog [3, 0] with st := .blocked, ob := [7] }).2.iq = [] ∧
    fetch (popOutput { prog [3, 0] with st := .blocked, ob := [7] }).2 = .ok (.inp (pos 0) .position .position) ∧
    firstFault (.inp (pos 0) .position .position) (popOutput { prog [3, 0] with st := .blocked, ob := [7] }).2 = none ∧
    RunReturns (prog [104, 7, 3, 0]) (.blockedOnInput 2)
      { prog [104, 7, 3, 0] with ip := 2, ob := [7], st := .blocked } :=
  ⟨by decide, by decide, by decide, by decide, 2, by decide⟩

theorem witness_InputAndOutputInOrder :
    see (step (addInput 7 (prog [3, 0]))) (fun t => (t.st, t.iq)) = some (.running, []) ∧
    see (step (prog [104, 7])) (fun t => (t.st, t.ob)) = some (.running, [7]) ∧
    (run 3 (addInput 8 (addInput 7 (prog [3, 0, 104, 5, 99])))).map (fun x => (x.1, x.2.st, x.2.iq, x.2.ob)) =
      some (.ok, .halted, [8], [5]) := by decide

theorem witness_OutputBufferUnread :
    see (exec (.out (imm 1) .position .position) (prog [])) State.ob = some [1] := by decide

/-- The invariant holds of a loaded program in a tape of 16 words. -/
theorem invariant_small (P : List Word) (h : P.length ≤ 16) (hw : (Memory.ofWords 0 P).wf = true)
    (hb : ∀ c ∈ Memory.ofWords 0 P, c.1 < P.length) : Invariant (progSmall P) where
  params := by show (1 : Nat) ≤ 16 ∧ (16 : Nat) ≤ 2 ^ 63; decide
  mem := hw
  tape := hb
  len := h
  ip := by show (0 : Word).toNat ≤ 2 ^ 63 + 3; decide
  fault := by show (none : Option FaultRecord).isSome = true ↔ Status.running = .faulted; decide
  record := by intro r hr; cases hr
  blocked := by intro hs; cases hs

theorem witness_ReadExtensionOnlyChangesLength : Invariant (progSmall [4, 9, 99]) ∧
    (progSmall [4, 9, 99]).len ≤ 16 ∧ 16 ≤ (progSmall [4, 9, 99]).params.memCapacity ∧
    see (step { progSmall [4, 9, 99] with len := 5 }) (fun t => (t.st, t.len)) = some (.running, 10) ∧
    see (step { progSmall [4, 9, 99] with
      params := { (progSmall [4, 9, 99]).params with readExtends := false } }) (fun t => (t.st, t.len)) =
        some (.running, 3) :=
  ⟨invariant_small _ (by decide) (by decide) (by decide), by decide, by decide, by decide, by decide⟩

theorem witness_StepKeepsInvariant : Invariant (progSmall [3, 9, 99]) ∧
    see (step (progSmall [3, 9, 99])) State.st = some .blocked :=
  ⟨invariant_small _ (by decide) (by decide) (by decide), by decide⟩

theorem witness_HostCommandsKeepInvariant : Invariant (progSmall [99]) ∧
    (hostCommand 1 .run (some (progSmall [99]))).map (fun x => x.2.map State.st) = some (some .halted) ∧
    Params.reference.Valid ∧ load Params.reference [99] = some (prog [99]) :=
  ⟨invariant_small _ (by decide) (by decide) (by decide), by decide, by decide, by decide⟩

/-- A program of exactly `MEM_CAPACITY` words, and one of one word more. -/
theorem witness_LoadResetsOrIsRefused :
    ([7, 8] : List Word).length ≤
      (loadParams none { memCapacity := 2, readExtends := false, overflowPolicy := .fault }).memCapacity ∧
    (loadParams none { memCapacity := 2, readExtends := false, overflowPolicy := .fault }).memCapacity <
      ([7, 8, 9] : List Word).length := by decide

theorem witness_RunOnHaltedIsNoOp : ({ prog [99] with st := .halted } : State).st = .halted ∧
    RunReturns { prog [99] with st := .halted } .ok { prog [99] with st := .halted } := ⟨rfl, 0, by decide⟩

theorem witness_RunOnFaultedRepeatsFatal : ({ prog [0] with st := .faulted } : State).st = .faulted := rfl

theorem witness_RunEndsExactly :
    (run 1 (prog [99])).map Prod.fst = some .ok ∧
    (run 1 (prog [3, 0])).map Prod.fst = some (.blockedOnInput 0) ∧
    (run 1 (prog [])).map Prod.fst = some (.fatal (some { kind := .illegalOpcode, ip := 0, value := some 0 })) := by decide

theorem witness_RunIsItsSteps : ({ prog [3, 0] with st := .blocked } : State).st = .blocked ∧
    (prog [104, 7, 99]).st = .running ∧ see (step (prog [104, 7, 99])) State.st = some .running ∧
    see (step (prog [99])) State.st = some .halted := by decide

theorem witness_ResumptionIsIdempotent :
    RunReturns (prog [3, 0, 99]) (.blockedOnInput 0) { prog [3, 0, 99] with st := .blocked } ∧
    (run 2 (addInputs [7] { prog [3, 0, 99] with st := .blocked })).map (fun x => (x.1, memRead x.2 0)) = some (.ok, 7) ∧
    (run 2 (addInputs [7] (prog [3, 0, 99]))).map (fun x => (x.1, memRead x.2 0)) = some (.ok, 7) :=
  ⟨⟨1, by decide⟩, by decide, by decide⟩

theorem witness_OutputIsReadAndDrained :
    (run 2 { prog [104, 7, 99] with ob := [6] }).map (fun x => (x.1, x.2.st, x.2.ob)) = some (.ok, .halted, [6, 7]) := by decide

theorem witness_UnusedInputIsRead :
    (run 2 { prog [3, 0, 99] with iq := [5, 6] }).map (fun x => (x.1, x.2.st, x.2.iq)) = some (.ok, .halted, [6]) := by decide

theorem witness_ReadMemoryReturnsTape : 0 < (prog [99, 0, 7]).len ∧ 2 < (prog [99, 0, 7]).len ∧
    readMemory (prog [99, 0, 7]) = [99, 0, 7] := by decide

theorem witness_StatusViewCodes :
    statusView { prog [3, 0] with st := .blocked, ip := 5 } =
      { status := 2, blockedIp := some 5, faultKind := 0, faultIp := 0, faultValue := 0 } ∧
    (see (step { prog [99, 98] with ip := 1 }) statusView) =
      some { status := 3, blockedIp := none, faultKind := 1, faultIp := 1, faultValue := 98 } ∧
    (statusView { prog [99] with st := .halted }).status = 1 ∧
    load Params.reference [99] = some (prog [99]) := by decide

theorem witness_InstancesShareNothing :
    instanceAt [some (prog [99]), none] 0 = instanceAt [some (prog [99])] 0 ∧
    (commandAt 1 0 .run [some (prog [99]), some (prog [7])]).map (fun x => (x.1, instanceAt x.2 1)) =
      some (.runResult .ok, some (prog [7])) ∧
    (commandAt 1 0 .run [some (prog [99])]).map Prod.fst = some (.runResult .ok) ∧
    commandAt 1 5 .run [some (prog [99])] = some (.noInstance, [some (prog [99])]) := by decide

/-- From no instance at all: a LOAD at place 0, and one at place 2, each create one. -/
theorem witness_AnyNumberOfInstances :
    ([99] : List Word).length ≤ (loadParams (instanceAt [] 2) Params.reference).memCapacity ∧
    commandAt 0 0 (.load Params.reference [99]) [] = some (.nothing, [some (prog [99])]) ∧
    commandAt 0 2 (.load Params.reference [7]) [some (prog [99])] =
      some (.nothing, [some (prog [99]), none, some (prog [7])]) ∧
    (loadParams (instanceAt [] 0) { memCapacity := 1, readExtends := false, overflowPolicy := .fault }).memCapacity <
      ([7, 8] : List Word).length ∧
    (instanceAt [none, some (prog [7])] 1).isSome = true ∧
    (commandAt 0 1 .discard [none, some (prog [7])]).map (fun x => instanceAt x.2 1) = some none := by decide

/-- `ADD [100], -1, [100]` encodes as `1001, 100, -1, 100` (R54's example). -/
theorem witness_AssembledLinesDecode :
    assembleInstr [] (.core .add) [.pos (.num 100), .imm (.num (-1)), .pos (.num 100)] = .ok [1001, 100, -1, 100] ∧
    assembleInstr [] (.core .inp) [.relMinus (.num 5)] = .ok [203, -5] ∧
    assembleInstr [] .jmp [.imm (.num 6)] = .ok [1105, 1, 6] := by decide

/-- A label, an address beside the capacity, and the largest word as a Relative operand. -/
theorem witness_PseudoInstructions :
    (AsmOperand.imm (.label ['l'])).param [(['l'], 6)] = .ok (imm 6) ∧
    operandFault (prog [99]) false (imm 6) = none ∧ 0 ≤ (value (prog [99]) (imm 6)).toInt ∧
    (AsmOperand.relPlus (.num (2 ^ 63 - 1))).param [] = .ok (rel maxWord) ∧
    operandFault (prog [99]) false (rel maxWord) = none ∧ 0 ≤ (value (prog [99]) (rel maxWord)).toInt ∧
    (AsmOperand.pos (.num 15)).param [] = .ok (pos 15) ∧ operandFault (progSmall [99]) true (pos 15) = none ∧
    operandFault (progSmall [99]) false (rel maxWord) = none := by decide

/-- The ends of the range: `[rb-n]` has a raw word for `n = 2^63 - 1` and is refused for `-2^63` and `2^63`. -/
theorem witness_OperandForms :
    ([(['l'], 6)] : List (List Char × Nat)).lookup ['l'] = some 6 ∧
    ([] : List (List Char × Nat)).lookup ['l'] = none ∧
    (AsmValue.num (2 ^ 63 - 1)).eval [] = .ok (2 ^ 63 - 1) ∧ IsWord (2 ^ 63 - 1) ∧ IsWord (-(2 ^ 63 - 1)) ∧
    (AsmValue.num (-(2 ^ 63))).eval [] = .ok (-(2 ^ 63)) ∧ IsWord (-(2 ^ 63)) ∧ ¬ IsWord (-(-(2 ^ 63))) ∧
    (AsmValue.num (2 ^ 63)).eval [] = .ok (2 ^ 63) ∧ ¬ IsWord (2 ^ 63) ∧
    (AsmOperand.relMinus (.num (2 ^ 63))).param [] = .error .notAWord ∧
    (AsmOperand.relMinus (.num (-(2 ^ 63)))).param [] = .error .notAWord := by decide

theorem witness_LaterInputChangesNoStep :
    see (step (addInput 5 (prog [3, 0]))) (fun t => (t.st, t.iq)) = some (.running, []) ∧
    see (step (addInputs [6] (addInput 5 (prog [3, 0])))) (fun t => (t.st, t.iq)) = some (.running, [6]) ∧
    see (step (prog [0])) State.st = some .faulted := by decide

end Sys2Proof.Tests
end

/-! The BlockedOnInput invariant (R21): what an instruction, a step, a RUN and a host command can do to the status,
and O35 from it. -/

namespace Sys2Proof.Machine

/-! ## The status after an instruction -/

theorem Faulted.st_eq {s t : State} (h : Faulted s t) : t.st = .faulted := by
  obtain ⟨c, s', -, rfl⟩ := h
  rfl

theorem execBinary_st {f : Params → Word → Word → Except FaultCause Word} {a b c : Param} {s t : State}
    (h : execBinary f a b c s = .next t) : t.st = s.st ∨ t.st = .faulted := by
  rcases execBinary_cases f a b c s with ⟨x, s1, y, s2, d, r, -, -, -, -, he, h'⟩ | ⟨u, hu, h'⟩ <;> cases h'.symm.trans h
  · exact .inl (by simp [he.st])
  · exact .inr hu.st_eq

theorem execArb_st {a : Param} {s t : State} (h : execArb a s = .next t) : t.st = s.st ∨ t.st = .faulted := by
  rcases execArb_cases a s with ⟨x, s1, r, -, -, he, h'⟩ | ⟨u, hu, h'⟩ <;> cases h'.symm.trans h
  · exact .inl he.st
  · exact .inr hu.st_eq

theorem execOut_st {a : Param} {s t : State} (h : execOut a s = .next t) : t.st = s.st ∨ t.st = .faulted := by
  rcases execOut_cases a s with ⟨x, s1, -, he, h'⟩ | ⟨u, hu, h'⟩ <;> cases h'.symm.trans h
  · exact .inl he.st
  · exact .inr hu.st_eq

theorem execJump_st {taken : Word → Bool} {a b : Param} {s t : State} (h : execJump taken a b s = .next t) :
    t.st = s.st ∨ t.st = .faulted := by
  rcases execJump_cases taken a b s with ⟨x, s1, y, s2, -, -, he, ⟨-, -, h'⟩ | ⟨-, h'⟩⟩ | ⟨u, hu, h'⟩ <;>
    cases h'.symm.trans h
  · exact .inl he.st
  · exact .inl he.st
  · exact .inr hu.st_eq

/-- IN blocks only on an empty `IQ`, and then does nothing else (R78). -/
theorem execIn_st {a : Param} {s t : State} (h : execIn a s = .next t) :
    t.st = s.st ∨ t.st = .faulted ∨ (s.iq = [] ∧ t = block s) := by
  rcases execIn_cases a s with ⟨d, v, rest, -, -, h'⟩ | ⟨d, -, hq, h'⟩ | ⟨c, -, h'⟩ <;> cases h'.symm.trans h
  · exact .inl (by simp)
  · exact .inr (.inr ⟨hq, rfl⟩)
  · exact .inr (.inl rfl)

/-- All that an instruction can do to the status (R17): keep it, fault, halt by HALT, or block by an IN. -/
theorem exec_st_cases {i : Instr} {s t : State} (h : exec i s = .next t) :
    (t.st = s.st ∨ t.st = .faulted) ∨ (∃ m1 m2 m3, i = .halt m1 m2 m3 ∧ t.st = .halted) ∨
    (∃ a m2 m3, i = .inp a m2 m3 ∧ s.iq = [] ∧ t = block s) := by
  cases i with
  | add a b c | mul a b c | lt a b c | eq a b c => exact .inl (execBinary_st h)
  | jnz a b m3 | jz a b m3 => exact .inl (execJump_st h)
  | out a m2 m3 => exact .inl (execOut_st h)
  | arb a m2 m3 => exact .inl (execArb_st h)
  | halt m1 m2 m3 =>
    cases h
    exact .inr (.inl ⟨m1, m2, m3, rfl, rfl⟩)
  | inp a m2 m3 =>
    rcases execIn_st h with hst | hst | ⟨hq, ht⟩
    · exact .inl (.inl hst)
    · exact .inl (.inr hst)
    · exact .inr (.inr ⟨a, m2, m3, rfl, hq, ht⟩)

/-! ## The step that blocks -/

/-- `fetch` reads only `IP` and the tape (R60). -/
theorem fetch_congr {s t : State} (hip : t.ip = s.ip) (hmem : t.mem = s.mem) (hlen : t.len = s.len) :
    fetch t = fetch s := by
  have hword : fetchWord t = fetchWord s := by
    funext k
    simp only [fetchWord, memRead, hip, hmem, hlen]
  simp only [fetch, hword]

/-- A step of a running core takes the decoder's fault or executes the decoded instruction (R60). -/
theorem step_running_cases {s t : State} (hs : s.st = .running) (h : step s = .next t) :
    (∃ e, fetch s = .error e ∧ t = takeFault (causeOfDecode e) s) ∨ (∃ i, fetch s = .ok i ∧ exec i s = .next t) := by
  have hrun : runInstruction s = .next t := by simpa only [step, engineStep, hs] using h
  unfold runInstruction at hrun
  rcases hf : fetch s with e | i <;> rw [hf] at hrun
  · cases hrun
    exact .inl ⟨e, rfl, rfl⟩
  · exact .inr ⟨i, rfl, hrun⟩

/-- A step that blocks is an IN on an empty `IQ`, with no other effect (R21, R78). -/
theorem step_blocked {s t : State} (hs : s.st = .running) (h : step s = .next t) (ht : t.st = .blocked) :
    t = block s ∧ s.iq = [] ∧ ∃ a m2 m3, fetch s = .ok (.inp a m2 m3) := by
  rcases step_running_cases hs h with ⟨e, -, rfl⟩ | ⟨i, hf, hx⟩
  · cases ht
  · rcases exec_st_cases hx with (hst | hst) | ⟨_, _, _, -, hst⟩ | ⟨a, m2, m3, rfl, hq, hblock⟩
    · simp [hs, ht] at hst
    · simp [ht] at hst
    · simp [ht] at hst
    · exact ⟨hblock, hq, a, m2, m3, hf⟩

/-- The state after a block still has the IN at its `IP` (R21). -/
theorem fetch_of_step_blocked {s t : State} (hs : s.st = .running) (h : step s = .next t) (ht : t.st = .blocked) :
    ∃ a m2 m3, fetch t = .ok (.inp a m2 m3) := by
  obtain ⟨rfl, -, a, m2, m3, hf⟩ := step_blocked hs h ht
  exact ⟨a, m2, m3, (fetch_congr rfl rfl rfl).trans hf⟩

/-! ## The RUN that reports a block -/

theorem runResult_eq_none {s : State} (h : runResult s = none) : s.st = .running := by
  unfold runResult at h
  split at h <;> simp_all

theorem runResult_eq_blocked {s : State} {p : Pointer} (h : runResult s = some (.blockedOnInput p)) :
    s.st = .blocked ∧ p = s.ip := by
  unfold runResult at h
  split at h <;> simp_all

/-- A returning loop ends with a step of a running core into the state whose result it returns (R65). -/
theorem runLoop_last_step {fuel : Nat} {s t : State} {r : RunResult} (hs : s.st = .running)
    (h : runLoop fuel s = some (r, t)) : ∃ u, u.st = .running ∧ step u = .next t ∧ runResult t = some r := by
  induction fuel generalizing s with
  | zero => cases h
  | succ fuel ih =>
    unfold runLoop at h
    rcases hstep : step s with u | c | c <;> simp only [hstep] at h
    · rcases hr : runResult u with _ | r' <;> simp only [hr] at h
      · exact ih (runResult_eq_none hr) h
      · cases h
        exact ⟨s, hs, hstep, hr⟩
    · cases h
    · cases h

/-- A RUN returns at once on a halted or faulted instance (R66, R68); another RUN that returns ends with a step. -/
theorem run_cases {fuel : Nat} {s t : State} {r : RunResult} (h : run fuel s = some (r, t)) :
    (s.st = .halted ∧ r = .ok ∧ t = s) ∨ (s.st = .faulted ∧ r = .fatal s.fr ∧ t = s) ∨
    (∃ u, u.st = .running ∧ step u = .next t ∧ runResult t = some r) := by
  unfold run at h
  cases hs : s.st <;> simp only [hs] at h
  case running => exact .inr (.inr (runLoop_last_step hs h))
  case blocked => exact .inr (.inr (runLoop_last_step (resume_st s) h))
  case halted =>
    cases h
    exact .inl ⟨rfl, rfl, rfl⟩
  case faulted =>
    cases h
    exact .inr (.inl ⟨rfl, rfl, rfl⟩)

/-- A RUN that reports a block ended with the step that blocked, and reports its `IP` (R21, R64). -/
theorem RunReturns.blocked {s t : State} {p : Pointer} (h : RunReturns s (.blockedOnInput p) t) :
    t.st = .blocked ∧ p = t.ip ∧ ∃ u, u.st = .running ∧ step u = .next t := by
  obtain ⟨fuel, hrun⟩ := h
  rcases run_cases hrun with ⟨-, hr, -⟩ | ⟨-, hr, -⟩ | ⟨u, hu, hstep, hres⟩
  · cases hr
  · cases hr
  · obtain ⟨hst, hp⟩ := runResult_eq_blocked hres
    exact ⟨hst, hp, u, hu, hstep⟩

/-! ## Host commands -/

/-- A host command other than RUN and LOAD that leaves an instance changes nothing of it but the two queues (R100 to R103). -/
theorem hostCommand_changes_only_queues {fuel : Nat} {c : HostCommand} {s t : State} {r : HostReply} (hrun : c ≠ .run)
    (hload : ∀ params P, c ≠ .load params P) (h : hostCommand fuel c (some s) = some (r, some t)) :
    t = { s with iq := t.iq, ob := t.ob } := by
  cases c with
  | load params P => exact absurd rfl (hload params P)
  | run => exact absurd rfl hrun
  | discard => cases h
  | addInput v | getOutput | popOutput | getUnusedInput | readMemory =>
    cases h
    rfl

/-- Settles O35: the step that blocks is IN's block, a RUN that reports a block ends with such a step, and the host commands
reach only the queues. -/
theorem blockHasNoEffect : Obligations.BlockHasNoEffect := by
  refine ⟨fun s t hs h ht => ?_, fun s t p h => ?_, fun fuel c s t r hs hrun hload h => ?_⟩
  · obtain ⟨hblock, hq, -⟩ := step_blocked hs h ht
    exact ⟨hblock, hq, fetch_of_step_blocked hs h ht⟩
  · obtain ⟨ht, hp, u, hu, hstep⟩ := h.blocked
    exact ⟨ht, hp, fetch_of_step_blocked hu hstep ht⟩
  · rw [hostCommand_changes_only_queues hrun hload h]
    exact ⟨hs, rfl, fetch_congr rfl rfl rfl⟩

end Sys2Proof.Machine

/-! ## Several instances -/

namespace Sys2Proof.Machine

/-- A command at a place is the command on the instance there, and writes what that leaves back to that place alone (R41). -/
theorem commandAt_eq_some {fuel k : Nat} {c : HostCommand} {insts after : Instances} {r : HostReply} :
    commandAt fuel k c insts = some (r, after) ↔
      ∃ inst, hostCommand fuel c (instanceAt insts k) = some (r, inst) ∧ setInstance insts k inst = after := by
  unfold commandAt
  rcases hostCommand fuel c (instanceAt insts k) with _ | ⟨r', inst⟩
  · simp
  · simp [and_assoc]

theorem commandAt_same {fuel k : Nat} {c : HostCommand} {insts after : Instances} {r : HostReply}
    (h : commandAt fuel k c insts = some (r, after)) :
    hostCommand fuel c (instanceAt insts k) = some (r, instanceAt after k) := by
  obtain ⟨inst, hcmd, rfl⟩ := commandAt_eq_some.mp h
  simpa using hcmd

theorem commandAt_other {fuel k j : Nat} {c : HostCommand} {insts after : Instances} {r : HostReply} (hj : j ≠ k)
    (h : commandAt fuel k c insts = some (r, after)) : instanceAt after j = instanceAt insts j := by
  obtain ⟨inst, -, rfl⟩ := commandAt_eq_some.mp h
  simp [hj]

/-- Settles O55: a command is the host command on the instance at its place, so two lists that agree there get the same
reply and the same instance. -/
theorem instancesShareNothing : Obligations.InstancesShareNothing := by
  refine ⟨fun fuel k c insts after r h => ⟨commandAt_same h, fun j hj => commandAt_other hj h⟩,
    fun fuel k c insts others after after' r r' heq h h' => ?_⟩
  have hsame : some (r, instanceAt after k) = some (r', instanceAt after' k) :=
    calc
      some (r, instanceAt after k) = hostCommand fuel c (instanceAt insts k) := (commandAt_same h).symm
      _ = hostCommand fuel c (instanceAt others k) := by rw [heq]
      _ = some (r', instanceAt after' k) := commandAt_same h'
  simpa using hsame

end Sys2Proof.Machine

/-! ## RUN on a halted instance -/

namespace Sys2Proof.Machine

theorem hostCommand_run (fuel : Nat) (s : State) :
    hostCommand fuel .run (some s) = (run fuel s).map (fun rt => (.runResult rt.1, some rt.2)) := rfl

/-- RUN on a halted instance takes no step, so no fuel is needed (R66). -/
theorem run_halted {s : State} (hs : s.st = .halted) (fuel : Nat) : run fuel s = some (.ok, s) := by
  simp only [run, hs]

/-- Settles O45: RUN answers Ok and the same state at every fuel, so the RUN command does too, and no RUN returns anything
else. -/
theorem runOnHaltedIsNoOp : Obligations.RunOnHaltedIsNoOp := by
  refine fun fuel s hs => ⟨?_, fun r t hret => ?_⟩
  · rw [hostCommand_run, run_halted hs, Option.map_some]
  · obtain ⟨fuel', hrun⟩ := hret
    cases (run_halted hs fuel').symm.trans hrun
    exact ⟨rfl, rfl⟩

end Sys2Proof.Machine

/-! I/O ordering (R80): the word a resolved operand names, what an instruction and a step can do to the two queues, what a
RUN does to them in sequence, and O37 from it. -/

namespace Sys2Proof.Machine

/-! ## A resolved operand in exact integers -/

theorem fit_ok {P : Params} {x : Int} {w : Word} (h : fit P x = .ok w) : w.toInt = Safety.policyValue x := by
  rw [fit_eq] at h
  split at h <;> cases h
  unfold Safety.policyValue
  split
  · next hx => exact toInt_wrap64_of_isWord hx
  · exact toInt_wrap64 x

/-- The word the resolver takes as address is the effective address of R56 to R58. -/
theorem address_of_resolved {p : Param} {s : State} {a : Word}
    (h : p.mode = .position ∧ a = p.raw ∨ p.mode = .relative ∧ effRel p.raw s = .ok a) :
    Safety.address s p = a.toInt := by
  unfold Safety.address
  rcases h with ⟨hm, rfl⟩ | ⟨hm, he⟩ <;> simp only [hm]
  exact (fit_ok he).symm

theorem toNat_toInt_of_nonneg {a : Word} (h : 0 ≤ a.toInt) : a.toInt.toNat = a.toNat := by
  rw [← toNat_of_nonneg h, Int.toNat_natCast]

theorem writeAddr_ok_eq_address {p : Param} {s : State} {d : Nat} (h : writeAddr p s = .ok d) :
    d = (Safety.address s p).toNat := by
  obtain ⟨-, a, hnonneg, rfl, hres⟩ := writeAddr_ok h
  rw [address_of_resolved hres, toNat_toInt_of_nonneg hnonneg]

theorem readOperand_ok_eq_value {p : Param} {s t : State} {v : Word} (h : readOperand p s = .ok v t) :
    v = Safety.value s p := by
  unfold Safety.value
  rcases readOperand_cases p s with ⟨hm, h'⟩ | ⟨a, hnonneg, h', hres⟩ | ⟨_, -, h', -⟩ | ⟨-, -, h'⟩ <;> cases h'.symm.trans h
  · simp only [hm]
  · rw [address_of_resolved hres, toNat_toInt_of_nonneg hnonneg]
    rcases hres with ⟨hm, -⟩ | ⟨hm, -⟩ <;> simp only [hm]

/-! ## The queues after an instruction -/

theorem Faulted.queues {s t : State} (h : Faulted s t) : t.iq = s.iq ∧ t.ob = s.ob := by
  obtain ⟨c, s', he, rfl⟩ := h
  exact ⟨he.iq, he.ob⟩

theorem execBinary_queues {f : Params → Word → Word → Except FaultCause Word} {a b c : Param} {s t : State}
    (h : execBinary f a b c s = .next t) : t.iq = s.iq ∧ t.ob = s.ob := by
  rcases execBinary_cases f a b c s with ⟨x, s1, y, s2, d, r, -, -, -, -, he, h'⟩ | ⟨u, hu, h'⟩ <;> cases h'.symm.trans h
  · simp [he.iq, he.ob]
  · exact hu.queues

theorem execArb_queues {a : Param} {s t : State} (h : execArb a s = .next t) : t.iq = s.iq ∧ t.ob = s.ob := by
  rcases execArb_cases a s with ⟨x, s1, r, -, -, he, h'⟩ | ⟨u, hu, h'⟩ <;> cases h'.symm.trans h
  · exact ⟨he.iq, he.ob⟩
  · exact hu.queues

theorem execJump_queues {taken : Word → Bool} {a b : Param} {s t : State} (h : execJump taken a b s = .next t) :
    t.iq = s.iq ∧ t.ob = s.ob := by
  rcases execJump_cases taken a b s with ⟨x, s1, y, s2, -, -, he, ⟨-, -, h'⟩ | ⟨-, h'⟩⟩ | ⟨u, hu, h'⟩ <;>
    cases h'.symm.trans h
  · exact ⟨he.iq, he.ob⟩
  · exact ⟨he.iq, he.ob⟩
  · exact hu.queues

/-- IN keeps both queues, where it blocks or faults, or takes the front of `IQ` and stores it (R78). -/
theorem execIn_queues {a : Param} {s t : State} (h : execIn a s = .next t) :
    t.ob = s.ob ∧
      (t.iq = s.iq ∨ ∃ v, s.iq = v :: t.iq ∧ memRead t (Safety.address s a).toNat = v) := by
  rcases execIn_cases a s with ⟨d, v, rest, hd, hq, h'⟩ | ⟨d, -, -, h'⟩ | ⟨c, -, h'⟩ <;> cases h'.symm.trans h
  · refine ⟨by simp, .inr ⟨v, by simp [hq], ?_⟩⟩
    rw [← writeAddr_ok_eq_address hd]
    exact (memWrite_memRead d d v _).trans (if_pos rfl)
  · exact ⟨rfl, .inl rfl⟩
  · exact ⟨rfl, .inl rfl⟩

/-- OUT keeps `IQ`, and keeps `OB`, where it faults, or appends the value of its operand to it (R79). -/
theorem execOut_queues {a : Param} {s t : State} (h : execOut a s = .next t) :
    t.iq = s.iq ∧ (t.ob = s.ob ∨ t.ob = s.ob ++ [Safety.value s a]) := by
  rcases execOut_cases a s with ⟨x, s1, hx, he, h'⟩ | ⟨u, hu, h'⟩ <;> cases h'.symm.trans h
  · refine ⟨he.iq, .inr ?_⟩
    rw [← readOperand_ok_eq_value hx, ← he.ob]
    rfl
  · exact ⟨hu.queues.1, .inl hu.queues.2⟩

/-- All that an instruction can do to the two queues (R80): nothing, IN's removal of the front of `IQ`, or OUT's append to
`OB`. -/
theorem exec_queues_cases {i : Instr} {s t : State} (h : exec i s = .next t) :
    (t.iq = s.iq ∧ t.ob = s.ob) ∨
    (∃ v a m2 m3, i = .inp a m2 m3 ∧ t.ob = s.ob ∧ s.iq = v :: t.iq ∧ memRead t (Safety.address s a).toNat = v) ∨
    (∃ a m2 m3, i = .out a m2 m3 ∧ t.iq = s.iq ∧ t.ob = s.ob ++ [Safety.value s a]) := by
  cases i with
  | add a b c | mul a b c | lt a b c | eq a b c => exact .inl (execBinary_queues h)
  | jnz a b m3 | jz a b m3 => exact .inl (execJump_queues h)
  | arb a m2 m3 => exact .inl (execArb_queues h)
  | halt m1 m2 m3 =>
    cases h
    exact .inl ⟨rfl, rfl⟩
  | inp a m2 m3 =>
    rcases execIn_queues h with ⟨hob, hiq | ⟨v, hiq, hread⟩⟩
    · exact .inl ⟨hiq, hob⟩
    · exact .inr (.inl ⟨v, a, m2, m3, rfl, hob, hiq, hread⟩)
  | out a m2 m3 =>
    rcases execOut_queues h with ⟨hiq, hob | hob⟩
    · exact .inl ⟨hiq, hob⟩
    · exact .inr (.inr ⟨a, m2, m3, rfl, hiq, hob⟩)

/-! ## The queues after a step -/

/-- Outside RUNNING a step changes nothing (R60). -/
theorem step_not_running {s t : State} (hs : s.st ≠ .running) (h : step s = .next t) : t = s := by
  cases hst : s.st with
  | running => exact absurd hst hs
  | halted | blocked | faulted =>
    simp only [step, engineStep, hst] at h
    cases h
    rfl

/-- All that a step can do to the two queues (R80). -/
theorem step_queues_cases {s t : State} (h : step s = .next t) :
    (t.iq = s.iq ∧ t.ob = s.ob) ∨
    (∃ v a m2 m3, fetch s = .ok (.inp a m2 m3) ∧ t.ob = s.ob ∧ s.iq = v :: t.iq ∧
      memRead t (Safety.address s a).toNat = v) ∨
    (∃ a m2 m3, fetch s = .ok (.out a m2 m3) ∧ t.iq = s.iq ∧ t.ob = s.ob ++ [Safety.value s a]) := by
  by_cases hs : s.st = .running
  · rcases step_running_cases hs h with ⟨e, -, rfl⟩ | ⟨i, hf, hx⟩
    · exact .inl ⟨rfl, rfl⟩
    · rcases exec_queues_cases hx with hkept | ⟨v, a, m2, m3, rfl, hin⟩ | ⟨a, m2, m3, rfl, hout⟩
      · exact .inl hkept
      · exact .inr (.inl ⟨v, a, m2, m3, hf, hin⟩)
      · exact .inr (.inr ⟨a, m2, m3, hf, hout⟩)
  · cases step_not_running hs h
    exact .inl ⟨rfl, rfl⟩

/-! ## The queues after a RUN -/

/-- From `s` to `t` a front part of `IQ` was consumed and words were appended to `OB` (R80). -/
def IoInOrder (s t : State) : Prop := t.iq <:+ s.iq ∧ s.ob <+: t.ob

theorem IoInOrder.refl (s : State) : IoInOrder s s := by simp [IoInOrder]

theorem IoInOrder.trans {s t u : State} (h : IoInOrder s t) (k : IoInOrder t u) : IoInOrder s u :=
  ⟨k.1.trans h.1, h.2.trans k.2⟩

theorem step_ioInOrder {s t : State} (h : step s = .next t) : IoInOrder s t := by
  rcases step_queues_cases h with ⟨hiq, hob⟩ | ⟨v, a, m2, m3, -, hob, hiq, -⟩ | ⟨a, m2, m3, -, hiq, hob⟩ <;>
    simp [IoInOrder, hiq, hob]

/-- A transitive relation between each state and its next state holds between the first and the last state of a RUN's loop. -/
theorem runLoop_rel {R : State → State → Prop} (htrans : ∀ {s t u}, R s t → R t u → R s u)
    (hstep : ∀ {s t}, step s = .next t → R s t) {fuel : Nat} {s t : State} {r : RunResult}
    (h : runLoop fuel s = some (r, t)) : R s t := by
  induction fuel generalizing s with
  | zero => cases h
  | succ fuel ih =>
    unfold runLoop at h
    rcases hs : step s with u | c | c <;> simp only [hs] at h
    · rcases hr : runResult u with _ | r' <;> simp only [hr] at h
      · exact htrans (hstep hs) (ih h)
      · cases h
        exact hstep hs
    · cases h
    · cases h

/-- Resuming touches no queue, so a RUN consumes and appends in the order of its steps, from every status. -/
theorem RunReturns.ioInOrder {s t : State} {r : RunResult} (h : RunReturns s r t) : IoInOrder s t := by
  obtain ⟨fuel, hrun⟩ := h
  unfold run at hrun
  cases hs : s.st <;> simp only [hs] at hrun
  case running => exact runLoop_rel (R := IoInOrder) IoInOrder.trans step_ioInOrder hrun
  case blocked => exact runLoop_rel (R := IoInOrder) (s := resume s) IoInOrder.trans step_ioInOrder hrun
  case halted | faulted =>
    cases hrun
    exact IoInOrder.refl s

/-- Settles O37: a step's clause is the case split of what a step can do to the queues, and a RUN is a sequence of steps. -/
theorem inputAndOutputInOrder : Obligations.InputAndOutputInOrder := by
  refine ⟨fun s t h _ => ?_, fun s t r h _ => ?_⟩
  · rcases step_queues_cases h with ⟨hiq, hob⟩ | ⟨v, a, m2, m3, hf, hob, hiq, hread⟩ | ⟨a, m2, m3, hf, hiq, hob⟩
    · exact ⟨.inl hiq, .inl hob⟩
    · exact ⟨.inr ⟨v, a, m2, m3, hiq, hf, hread⟩, .inl hob⟩
    · exact ⟨.inl hiq, .inr ⟨a, m2, m3, hf, hob⟩⟩
  · obtain ⟨⟨used, hiq⟩, made, hob⟩ := h.ioInOrder
    exact ⟨⟨used, hiq.symm⟩, made, hob.symm⟩

end Sys2Proof.Machine

/-! The host's view of the two queues (R101, R102): the replies that read them, what a RUN does to each of them, and O51 and
O52 from it. -/

namespace Sys2Proof.Machine

theorem hostCommand_getOutput (fuel : Nat) (s : State) :
    hostCommand fuel .getOutput (some s) = some (.words s.ob, some s) := rfl

theorem hostCommand_popOutput (fuel : Nat) (s : State) :
    hostCommand fuel .popOutput (some s) = some (.words s.ob, some { s with ob := [] }) := rfl

theorem hostCommand_getUnusedInput (fuel : Nat) (s : State) :
    hostCommand fuel .getUnusedInput (some s) = some (.words s.iq, some s) := rfl

theorem RunReturns.ob_prefix {s t : State} {r : RunResult} (h : RunReturns s r t) : s.ob <+: t.ob := by
  obtain ⟨-, hob⟩ := h.ioInOrder
  exact hob

theorem RunReturns.iq_suffix {s t : State} {r : RunResult} (h : RunReturns s r t) : t.iq <:+ s.iq := by
  obtain ⟨hiq, -⟩ := h.ioInOrder
  exact hiq

/-- Settles O51: the two replies are what the commands' arms give, and a RUN only appends to `OB`, one OUT at a time. -/
theorem outputIsReadAndDrained : Obligations.OutputIsReadAndDrained := by
  refine ⟨fun fuel s => ⟨?getOutput, ?popOutput⟩, fun s t r h _ => ?run⟩
  case getOutput => exact hostCommand_getOutput fuel s
  case popOutput => exact hostCommand_popOutput fuel s
  case run => exact h.ob_prefix

/-- Settles O52: the reply is what the command's arm gives, and a RUN only removes from the front of `IQ`, one IN at a
time. -/
theorem unusedInputIsRead : Obligations.UnusedInputIsRead := by
  refine ⟨fun fuel s => ?getUnusedInput, fun s t r h _ => ?run⟩
  case getUnusedInput => exact hostCommand_getUnusedInput fuel s
  case run => exact h.iq_suffix

end Sys2Proof.Machine

/-! The decoder and the encoder (R43 to R52): what each table lookup answers, exactly which words decode and to what, and
O3, O4, O5, O6, O1, O2 from it. -/

namespace Sys2Proof

/-! ## The two tables -/

theorem Opcode.mem_all (o : Opcode) : o ∈ Opcode.all := by cases o <;> decide

theorem Opcode.value_bounds (o : Opcode) : 1 ≤ o.value ∧ o.value ≤ 99 := by cases o <;> decide

theorem opcodeOf_eq_some {n : Nat} {o : Opcode} : opcodeOf n = some o ↔ o.value = n := by
  unfold opcodeOf
  constructor
  · intro h
    simpa using List.find?_some h
  · rintro rfl
    cases o <;> rfl

theorem Opcode.value_injective {o o' : Opcode} (h : o.value = o'.value) : o = o' :=
  Option.some.inj ((opcodeOf_eq_some.mpr h).symm.trans (opcodeOf_eq_some.mpr rfl))

/-- The opcode values of R44, as a list of numbers. -/
theorem exists_opcode_value {n : Nat} : (∃ o : Opcode, o.value = n) ↔ n ∈ [1, 2, 3, 4, 5, 6, 7, 8, 9, 99] := by
  have values : Opcode.all.map Opcode.value = [1, 2, 3, 4, 5, 6, 7, 8, 9, 99] := rfl
  simp [← values, Opcode.mem_all]

theorem Mode.digit_le (m : Mode) : m.digit ≤ 2 := by cases m <;> decide

theorem Mode.exists_digit {d : Nat} (h : d ≤ 2) : ∃ m : Mode, m.digit = d := by
  interval_cases d
  exacts [⟨.position, rfl⟩, ⟨.immediate, rfl⟩, ⟨.relative, rfl⟩]

theorem modeOf_digit (m : Mode) : modeOf m.digit = some m := by cases m <;> rfl

theorem Mode.digit_injective {m m' : Mode} (h : m.digit = m'.digit) : m = m' :=
  Option.some.inj ((modeOf_digit m).symm.trans (h ▸ modeOf_digit m'))

theorem decodeMode_digit (m : Mode) : decodeMode m.digit = .ok m := by simp only [decodeMode, modeOf_digit]

theorem modeOf_of_ge {d : Nat} (h : 3 ≤ d) : modeOf d = none := by
  simp only [modeOf, List.find?_eq_none, beq_iff_eq]
  intro m _
  have := m.digit_le
  omega

theorem decodeMode_of_ge {d : Nat} (h : 3 ≤ d) : decodeMode d = .error (.invalidParameterMode d) := by
  simp only [decodeMode, modeOf_of_ge h]

/-- One mode digit decodes to the mode of that digit, or is refused by name (R47). -/
theorem decodeMode_cases (d : Nat) :
    (∃ m : Mode, m.digit = d ∧ decodeMode d = .ok m) ∨ (3 ≤ d ∧ decodeMode d = .error (.invalidParameterMode d)) := by
  by_cases h : d ≤ 2
  · obtain ⟨m, rfl⟩ := Mode.exists_digit h
    exact .inl ⟨m, rfl, decodeMode_digit m⟩
  · exact .inr ⟨by omega, decodeMode_of_ge (by omega)⟩

/-! ## What the decoder answers -/

/-- R48 (a) to (c): the word is not negative, its low two digits are an opcode, and no digit stands above the third mode
digit. -/
def OpcodeLegal (w : Word) (o : Opcode) : Prop := 0 ≤ w.toInt ∧ w.toNat % 100 = o.value ∧ w.toNat < 100000

/-- The five outcomes of R47: the opcode checks fail, the first, second or third mode digit is refused, or all pass. -/
theorem decodeOpcodeWord_cases (w : Word) :
    ((∀ o, ¬ OpcodeLegal w o) ∧ decodeOpcodeWord w = .error (.illegalOpcode w)) ∨
    (∃ o, OpcodeLegal w o ∧
      ((∃ m1 m2 m3 : Mode, m1.digit = decimalDigit w.toNat 2 ∧ m2.digit = decimalDigit w.toNat 3 ∧
          m3.digit = decimalDigit w.toNat 4 ∧ decodeOpcodeWord w = .ok ⟨o, m1, m2, m3⟩) ∨
        ∃ j ∈ [2, 3, 4], 3 ≤ decimalDigit w.toNat j ∧ (∀ k ∈ [2, 3, 4], k < j → decimalDigit w.toNat k ≤ 2) ∧
          decodeOpcodeWord w = .error (.invalidParameterMode (decimalDigit w.toNat j)))) := by
  unfold decodeOpcodeWord
  by_cases hneg : w.toInt < 0
  · exact .inl ⟨fun o h => absurd h.1 (by omega), if_pos hneg⟩
  rw [if_neg hneg]
  rcases hop : opcodeOf (w.toNat % 100) with _ | o
  · refine .inl ⟨fun o h => ?_, rfl⟩
    rw [opcodeOf_eq_some.mpr h.2.1.symm] at hop
    cases hop
  have hval := opcodeOf_eq_some.mp hop
  by_cases hhigh : w.toNat / 100000 ≠ 0
  · exact .inl ⟨fun o' h => hhigh (Nat.div_eq_of_lt h.2.2), if_pos hhigh⟩
  refine .inr ⟨o, ⟨by omega, hval.symm, by omega⟩, ?_⟩
  simp only [if_neg hhigh]
  rcases decodeMode_cases (decimalDigit w.toNat 2) with ⟨m1, h1, e1⟩ | ⟨h1, e1⟩ <;> simp only [e1]
  case inr => exact .inr ⟨2, by simp, h1, by simp, rfl⟩
  rcases decodeMode_cases (decimalDigit w.toNat 3) with ⟨m2, h2, e2⟩ | ⟨h2, e2⟩ <;> simp only [e2]
  case inr => exact .inr ⟨3, by simp, h2, by simp [← h1, m1.digit_le], rfl⟩
  rcases decodeMode_cases (decimalDigit w.toNat 4) with ⟨m3, h3, e3⟩ | ⟨h3, e3⟩ <;> simp only [e3]
  case inr => exact .inr ⟨4, by simp, h3, by simp [← h1, ← h2, m1.digit_le, m2.digit_le], rfl⟩
  exact .inl ⟨m1, m2, m3, h1, h2, h3, rfl⟩

theorem OpcodeLegal.unique {w : Word} {o o' : Opcode} (h : OpcodeLegal w o) (h' : OpcodeLegal w o') : o = o' := by
  obtain ⟨-, hval, -⟩ := h
  obtain ⟨-, hval', -⟩ := h'
  exact Opcode.value_injective (hval.symm.trans hval')

/-- The words that decode, and to what. -/
theorem decodeOpcodeWord_ok_iff {w : Word} {d : Decoded} :
    decodeOpcodeWord w = .ok d ↔ OpcodeLegal w d.opcode ∧ d.m1.digit = decimalDigit w.toNat 2 ∧
      d.m2.digit = decimalDigit w.toNat 3 ∧ d.m3.digit = decimalDigit w.toNat 4 := by
  obtain ⟨o, m1, m2, m3⟩ := d
  rcases decodeOpcodeWord_cases w with ⟨hno, e⟩ | ⟨o', ho', ⟨n1, n2, n3, h1, h2, h3, e⟩ | ⟨j, hj, hbad, -, e⟩⟩
  · simp [e, hno]
  · simp only [e, Except.ok.injEq, Decoded.mk.injEq]
    constructor
    · rintro ⟨rfl, rfl, rfl, rfl⟩
      exact ⟨ho', h1, h2, h3⟩
    · rintro ⟨ho, k1, k2, k3⟩
      exact ⟨ho'.unique ho, Mode.digit_injective (h1.trans k1.symm), Mode.digit_injective (h2.trans k2.symm),
        Mode.digit_injective (h3.trans k3.symm)⟩
  · simp only [e, reduceCtorEq, false_iff]
    rintro ⟨-, k1, k2, k3⟩
    have := m1.digit_le
    have := m2.digit_le
    have := m3.digit_le
    simp only [List.mem_cons, List.not_mem_nil, or_false] at hj
    rcases hj with rfl | rfl | rfl <;> omega

end Sys2Proof

namespace Sys2Proof

/-! ## Encoding and decoding agree -/

theorem encodeOpcode_toNat (o : Opcode) (m1 m2 m3 : Mode) :
    (encodeOpcode o m1 m2 m3).toNat = o.value + 100 * m1.digit + 1000 * m2.digit + 10000 * m3.digit := by
  obtain ⟨-, hv⟩ := o.value_bounds
  have := m1.digit_le
  have := m2.digit_le
  have := m3.digit_le
  exact (BitVec.toNat_ofNat _ _).trans (Nat.mod_eq_of_lt (by omega))

theorem toInt_eq_toNat_of_small {w : Word} (h : w.toNat < 2 ^ 63) : w.toInt = w.toNat :=
  BitVec.toInt_eq_toNat_of_lt (by omega)

theorem decodeOpcodeWord_encodeOpcode (o : Opcode) (m1 m2 m3 : Mode) :
    decodeOpcodeWord (encodeOpcode o m1 m2 m3) = .ok ⟨o, m1, m2, m3⟩ := by
  have hw := encodeOpcode_toNat o m1 m2 m3
  obtain ⟨-, hv⟩ := o.value_bounds
  have h1 := m1.digit_le
  have h2 := m2.digit_le
  have h3 := m3.digit_le
  have hint := toInt_eq_toNat_of_small (w := encodeOpcode o m1 m2 m3) (by omega)
  simp only [decodeOpcodeWord_ok_iff, OpcodeLegal, decimalDigit, hint, hw]
  omega

/-- Settles O3: the opcode word decodes to its fields, and each parameter word stands at its index in front of `rest`. -/
theorem decodeOfEncode : Obligations.DecodeOfEncode := by
  intro i rest
  unfold decodeWords decode
  cases i <;> simp [encode, decodeOpcodeWord_encodeOpcode, Decoded.toInstr]

/-- Settles O4: a decoded word is the sum of its fields, so it is the word the encoder builds from them. -/
theorem encodeOfDecode : Obligations.EncodeOfDecode := by
  rintro w ⟨o, m1, m2, m3⟩ h
  obtain ⟨⟨hnonneg, hop, hhigh⟩, h1, h2, h3⟩ := decodeOpcodeWord_ok_iff.mp h
  simp only [decimalDigit] at hop h1 h2 h3
  have hw : w.toNat = o.value + 100 * m1.digit + 1000 * m2.digit + 10000 * m3.digit := by omega
  have hv := o.value_bounds
  have := m1.digit_le
  have := m2.digit_le
  have := m3.digit_le
  have hint := toInt_eq_toNat_of_small (w := w) (by omega)
  exact ⟨BitVec.eq_of_toNat_eq ((encodeOpcode_toNat o m1 m2 m3).trans hw.symm), by omega, by omega⟩

/-! ## The legal words in exact integers -/

/-- The checks R48 (a) to (c), on the value of the word. -/
theorem exists_opcodeLegal {w : Word} : (∃ o, OpcodeLegal w o) ↔
    0 ≤ w.toInt ∧ w.toInt < 100000 ∧ w.toInt % 100 ∈ ([1, 2, 3, 4, 5, 6, 7, 8, 9, 99] : List Int) := by
  have hvalues := exists_opcode_value (n := w.toNat % 100)
  simp only [List.mem_cons, List.not_mem_nil, or_false] at hvalues ⊢
  constructor
  · rintro ⟨o, hnonneg, hop, hhigh⟩
    have hint := Machine.toNat_of_nonneg hnonneg
    have := hvalues.mp ⟨o, hop.symm⟩
    omega
  · rintro ⟨hnonneg, hhigh, hmem⟩
    have hint := Machine.toNat_of_nonneg hnonneg
    obtain ⟨o, ho⟩ := hvalues.mpr (by omega)
    exact ⟨o, hnonneg, ho.symm, by omega⟩

theorem toInt_digit {w : Word} (h : 0 ≤ w.toInt) (j : Nat) : w.toInt / 10 ^ j % 10 = (decimalDigit w.toNat j : Int) := by
  rw [← Machine.toNat_of_nonneg h]
  simp [decimalDigit]

/-- Settles O5: a word that passes the opcode checks decodes unless one of its three mode digits is above 2. -/
theorem legalWordsExactly : Obligations.LegalWordsExactly := by
  intro w
  rcases decodeOpcodeWord_cases w with ⟨hno, e⟩ | ⟨o, ho, ⟨m1, m2, m3, h1, h2, h3, e⟩ | ⟨j, hj, hbad, -, e⟩⟩
  · simp only [e, reduceCtorEq, exists_false, false_iff]
    rintro ⟨hnonneg, hhigh, hmem, -⟩
    obtain ⟨o, ho⟩ := exists_opcodeLegal.mpr ⟨hnonneg, hhigh, hmem⟩
    exact hno o ho
  · obtain ⟨hnonneg, hhigh, hmem⟩ := exists_opcodeLegal.mp ⟨o, ho⟩
    refine iff_of_true ⟨_, e⟩ ⟨hnonneg, hhigh, hmem, ?_⟩
    have := m1.digit_le
    have := m2.digit_le
    have := m3.digit_le
    simp only [toInt_digit hnonneg, List.mem_cons, List.not_mem_nil, or_false, forall_eq_or_imp, forall_eq, ← h1, ← h2,
      ← h3]
    omega
  · simp only [e, reduceCtorEq, exists_false, false_iff]
    rintro ⟨hnonneg, -, -, hdigits⟩
    have := hdigits j hj
    rw [toInt_digit hnonneg] at this
    omega

/-- `IllegalOpcode` names the word itself, and is raised exactly where the opcode checks fail (R48, R86). -/
theorem decodeOpcodeWord_illegalOpcode_iff {w v : Word} :
    decodeOpcodeWord w = .error (.illegalOpcode v) ↔ v = w ∧ ∀ o, ¬ OpcodeLegal w o := by
  rcases decodeOpcodeWord_cases w with ⟨hno, e⟩ | ⟨o, ho, ⟨m1, m2, m3, -, -, -, e⟩ | ⟨j, -, -, -, e⟩⟩
  · simp [e, hno, eq_comm]
  · simp only [e, reduceCtorEq, false_iff]
    exact fun h => h.2 o ho
  · simp only [e, Except.error.injEq, reduceCtorEq, false_iff]
    exact fun h => h.2 o ho

/-- `InvalidParameterMode` names the first mode digit above 2 (R48, R87). -/
theorem decodeOpcodeWord_invalidParameterMode_iff {w : Word} {d : Nat} :
    decodeOpcodeWord w = .error (.invalidParameterMode d) ↔ (∃ o, OpcodeLegal w o) ∧
      ∃ j ∈ [2, 3, 4], d = decimalDigit w.toNat j ∧ 3 ≤ d ∧ ∀ k ∈ [2, 3, 4], k < j → decimalDigit w.toNat k ≤ 2 := by
  rcases decodeOpcodeWord_cases w with ⟨hno, e⟩ | ⟨o, ho, ⟨m1, m2, m3, h1, h2, h3, e⟩ | ⟨j, hj, hbad, hfirst, e⟩⟩
  · simp [e, hno]
  · simp only [e, reduceCtorEq, false_iff]
    rintro ⟨-, j, hj, rfl, hbad, -⟩
    have := m1.digit_le
    have := m2.digit_le
    have := m3.digit_le
    simp only [List.mem_cons, List.not_mem_nil, or_false] at hj
    rcases hj with rfl | rfl | rfl <;> omega
  · simp only [e, Except.error.injEq, DecodeError.invalidParameterMode.injEq]
    constructor
    · rintro rfl
      exact ⟨⟨o, ho⟩, j, hj, rfl, hbad, hfirst⟩
    · rintro ⟨-, j', hj', rfl, hbad', hfirst'⟩
      rcases Nat.lt_trichotomy j j' with hlt | rfl | hlt
      · have := hfirst' j hj hlt
        omega
      · rfl
      · have := hfirst j' hj' hlt
        omega

/-- Settles O6: the two refusals, restated on the value of the word. -/
theorem illegalWordsExactly : Obligations.IllegalWordsExactly := by
  refine ⟨fun w v => ?_, fun w d => ?_⟩
  · rw [decodeOpcodeWord_illegalOpcode_iff, ← not_exists, exists_opcodeLegal]
    refine and_congr_right fun _ => ?_
    rw [not_and_or, not_and_or, not_le, not_lt]
  · rw [decodeOpcodeWord_invalidParameterMode_iff, exists_opcodeLegal, and_assoc, and_assoc]
    refine and_congr_right fun hnonneg => ?_
    simp only [toInt_digit hnonneg, Nat.cast_inj, Nat.cast_le_ofNat]

/-! ## The spec's own words -/

/-- Settles O1: the decoder runs on each of the ten word lists. -/
theorem specWordsDecode : Obligations.SpecWordsDecode := by
  refine ⟨?_, ?_, ?_, ?_, ?_, ?_, ?_, ?_, ?_, ?_⟩ <;> decide

/-- Settles O2: the decoder runs on each of the thirteen words. -/
theorem specWordsRefused : Obligations.SpecWordsRefused := by
  refine ⟨?_, ?_, ?_, ?_, ?_, ?_, ?_, ?_, ?_, ?_, ?_, ?_, ?_⟩ <;> decide

end Sys2Proof

/-! The tape and the operand resolver in exact integers (R28 to R30, R56 to R58): what a write leaves, what a read or a
write operand answers with and without a fault, and O7, O9, O10 from it. -/

namespace Sys2Proof.Machine

open Sys2Proof.Safety

/-! ## Writing the tape -/

/-- `MemWrite` touches the memory and the tape length only (R29). -/
theorem memWrite_eq (a : Nat) (v : Word) (s : State) :
    memWrite a v s = { s with mem := (memWrite a v s).mem, len := (memWrite a v s).len } := by
  unfold memWrite extendTape
  split <;> rfl

theorem memWrite_fetchWord {s : State} {a k : Nat} (v : Word) (h : s.ip.toNat + k = a) :
    fetchWord (memWrite a v s) k = v := by
  rw [fetchWord, memWrite_ip, memWrite_memRead, if_pos h]

/-- Settles O7, from the laws of the tape. -/
theorem memWriteStoresAndExtends : Obligations.MemWriteStoresAndExtends := fun s a v =>
  ⟨fun b => memWrite_memRead a b v s, memWrite_len a v s, memWrite_eq a v s, memWrite_wf a v s,
    fun _ hk => memWrite_fetchWord v hk⟩

/-! ## What a state must share for an operand to mean the same -/

theorem TapeExtended.eq_record {s t : State} (h : TapeExtended s t) : t = { s with mem := t.mem, len := t.len } := by
  cases t
  simp only [State.mk.injEq, true_and]
  exact ⟨h.ip, h.rb, h.iq, h.ob, h.st, h.fr, h.params⟩

theorem TapeExtended.address {s t : State} (h : TapeExtended s t) (p : Param) : address t p = address s p := by
  simp only [Safety.address, h.rb]

theorem TapeExtended.overflows {s t : State} (h : TapeExtended s t) (x : Int) : overflows t x = overflows s x := by
  simp only [Safety.overflows, h.params]

theorem TapeExtended.operandFault {s t : State} (h : TapeExtended s t) (write : Bool) (p : Param) :
    operandFault t write p = operandFault s write p := by
  simp only [Safety.operandFault, h.overflows, h.address, h.rb, h.params]

theorem TapeExtended.value {s t : State} (h : TapeExtended s t) (p : Param) : value t p = value s p := by
  simp only [Safety.value, h.address, h.read]

theorem TapeExtended.lenAfterRead {s t : State} (h : TapeExtended s t) (p : Param) (L : Nat) :
    lenAfterRead t p L = lenAfterRead s p L := by
  simp only [Safety.lenAfterRead, h.address, h.params]

/-! ## The overflow policy -/

theorem overflows_eq_true {s : State} {x : Int} :
    overflows s x = true ↔ ¬ IsWord x ∧ s.params.overflowPolicy = .fault := by
  simp only [overflows, Bool.and_eq_true, decide_eq_true_eq]

theorem fit_of_overflows {s : State} {x : Int} (h : overflows s x = true) :
    fit s.params x = .error .arithmeticOverflow := by
  rw [fit_eq, if_pos (overflows_eq_true.mp h)]

theorem fit_of_not_overflows {s : State} {x : Int} (h : ¬ overflows s x = true) : fit s.params x = .ok (wrap64 x) := by
  rw [fit_eq, if_neg (fun hx => h (overflows_eq_true.mpr hx))]

theorem toInt_wrap64_eq_policyValue (x : Int) : (wrap64 x).toInt = policyValue x := by
  unfold policyValue
  split
  · next h => exact toInt_wrap64_of_isWord h
  · exact toInt_wrap64 x

/-! ## Resolving an address -/

/-- Where a Position or Relative operand gets its address word from, or the overflow that stops it (R58). -/
theorem effective_address_cases (s : State) (p : Param) (hp : p.mode ≠ .immediate) :
    (p.mode = .relative ∧ overflows s (s.rb.toInt + p.raw.toInt) = true) ∨
    (¬ (p.mode = .relative ∧ overflows s (s.rb.toInt + p.raw.toInt) = true) ∧ ∃ a : Word, address s p = a.toInt ∧
      (p.mode = .position ∧ a = p.raw ∨ p.mode = .relative ∧ effRel p.raw s = .ok a)) := by
  rcases hm : p.mode with _ | _ | _
  · have hres : p.mode = .position ∧ p.raw = p.raw ∨ p.mode = .relative ∧ effRel p.raw s = .ok p.raw := .inl ⟨hm, rfl⟩
    exact .inr ⟨by simp, p.raw, address_of_resolved hres, .inl ⟨rfl, rfl⟩⟩
  · exact absurd hm hp
  · by_cases ho : overflows s (s.rb.toInt + p.raw.toInt) = true
    · exact .inl ⟨rfl, ho⟩
    · have he := fit_of_not_overflows ho
      exact .inr ⟨fun h => ho h.2, _, address_of_resolved (.inr ⟨hm, he⟩), .inr ⟨rfl, he⟩⟩

/-- With its address word resolved, the last lines of `ReadOperand` remain. -/
theorem readOperand_of_resolved {p : Param} {s : State} {a : Word}
    (h : p.mode = .position ∧ a = p.raw ∨ p.mode = .relative ∧ effRel p.raw s = .ok a) :
    readOperand p s = readAt a s := by
  rcases h with ⟨hm, rfl⟩ | ⟨hm, he⟩ <;> simp only [readOperand, hm]
  rw [he]

theorem writeAddr_of_resolved {p : Param} {s : State} {a : Word}
    (h : p.mode = .position ∧ a = p.raw ∨ p.mode = .relative ∧ effRel p.raw s = .ok a) :
    writeAddr p s = checkWrite a s := by
  rcases h with ⟨hm, rfl⟩ | ⟨hm, he⟩ <;> simp only [writeAddr, hm]
  rw [he]

theorem readOperand_immediate {p : Param} {s : State} (hm : p.mode = .immediate) : readOperand p s = .ok p.raw s := by
  simp only [readOperand, hm]

theorem readOperand_overflow {p : Param} {s : State} (hm : p.mode = .relative)
    (ho : overflows s (s.rb.toInt + p.raw.toInt) = true) : readOperand p s = .fault .arithmeticOverflow s := by
  simp only [readOperand, hm, effRel, fit_of_overflows ho]

theorem writeAddr_immediate {p : Param} {s : State} (hm : p.mode = .immediate) :
    writeAddr p s = .error .writeToImmediate := by
  simp only [writeAddr, hm]

theorem writeAddr_overflow {p : Param} {s : State} (hm : p.mode = .relative)
    (ho : overflows s (s.rb.toInt + p.raw.toInt) = true) : writeAddr p s = .error .arithmeticOverflow := by
  simp only [writeAddr, hm, effRel, fit_of_overflows ho]

/-! ## Read operands -/

/-- `t` is the state after the read operand `p` was resolved in `s` without a fault (R30, R56). -/
structure ReadResult (s : State) (p : Param) (t : State) : Prop where
  extended : TapeExtended s t
  len      : t.len = lenAfterRead s p s.len

theorem readOperand_of_fault {s : State} {p : Param} {k : FaultKind} (h : operandFault s false p = some k) :
    ∃ c, c.kind = k ∧ c.value = none ∧ readOperand p s = .fault c s := by
  unfold operandFault at h
  by_cases hp : p.mode = .immediate
  · simp [hp] at h
  rw [if_neg hp] at h
  rcases effective_address_cases s p hp with ho | ⟨hno, a, haddr, hres⟩
  · rw [if_pos ho] at h
    cases h
    exact ⟨.arithmeticOverflow, rfl, rfl, readOperand_overflow ho.1 ho.2⟩
  · rw [if_neg hno, haddr] at h
    by_cases hneg : a.toInt < 0
    · rw [if_pos hneg] at h
      cases h
      exact ⟨.negativeAddress, rfl, rfl, (readOperand_of_resolved hres).trans (if_pos hneg)⟩
    · simp [hneg] at h

theorem readOperand_of_no_fault {s : State} {p : Param} (h : operandFault s false p = none) :
    ∃ t, readOperand p s = .ok (value s p) t ∧ ReadResult s p t := by
  unfold operandFault at h
  by_cases hp : p.mode = .immediate
  · refine ⟨s, ?_, TapeExtended.refl s, by simp only [lenAfterRead, hp, if_true]⟩
    simp only [readOperand_immediate hp, value, hp]
  rw [if_neg hp] at h
  rcases effective_address_cases s p hp with ho | ⟨hno, a, haddr, hres⟩
  · rw [if_pos ho] at h
    cases h
  · rw [if_neg hno, haddr] at h
    by_cases hneg : a.toInt < 0
    · rw [if_pos hneg] at h
      cases h
    have hread : readOperand p s = .ok (memRead s a.toNat) (extendOnRead a.toNat s) :=
      (readOperand_of_resolved hres).trans (if_neg hneg)
    have hint := toNat_of_nonneg (a := a) (by omega)
    refine ⟨extendOnRead a.toNat s, ?_, extendOnRead_extended _ s, ?_⟩
    · rw [← readOperand_ok_eq_value hread, hread]
    · rw [extendOnRead_len, lenAfterRead, if_neg hp, haddr, ← hint, Int.toNat_natCast]
      simp only [Nat.cast_lt]

/-- Settles O9: the two cases of the resolver, with the state after a read written as a record. -/
theorem readOperandByMode : Obligations.ReadOperandByMode := by
  refine fun s p => ⟨fun k hk => readOperand_of_fault hk, fun hnone => ?_⟩
  obtain ⟨t, hread, hext, hlen⟩ := readOperand_of_no_fault hnone
  refine ⟨t, hread, ?_, hext.read⟩
  rw [← hlen]
  exact hext.eq_record

/-! ## Write operands -/

theorem writeAddr_of_fault {s : State} {p : Param} {k : FaultKind} (h : operandFault s true p = some k) :
    ∃ c, c.kind = k ∧ c.value = none ∧ writeAddr p s = .error c := by
  unfold operandFault at h
  by_cases hp : p.mode = .immediate
  · rw [if_pos hp, if_pos rfl] at h
    cases h
    exact ⟨.writeToImmediate, rfl, rfl, writeAddr_immediate hp⟩
  rw [if_neg hp] at h
  rcases effective_address_cases s p hp with ho | ⟨hno, a, haddr, hres⟩
  · rw [if_pos ho] at h
    cases h
    exact ⟨.arithmeticOverflow, rfl, rfl, writeAddr_overflow ho.1 ho.2⟩
  · rw [if_neg hno, haddr] at h
    by_cases hneg : a.toInt < 0
    · rw [if_pos hneg] at h
      cases h
      exact ⟨.negativeAddress, rfl, rfl, (writeAddr_of_resolved hres).trans (if_pos hneg)⟩
    rw [if_neg hneg] at h
    have hint := toNat_of_nonneg (a := a) (by omega)
    split at h
    · next hcap =>
      cases h
      refine ⟨.memoryCapacityExceeded, rfl, rfl, (writeAddr_of_resolved hres).trans ?_⟩
      rw [checkWrite, if_neg hneg, if_pos (by omega)]
    · cases h

theorem writeAddr_of_no_fault {s : State} {p : Param} (h : operandFault s true p = none) :
    writeAddr p s = .ok (address s p).toNat ∧ 0 ≤ address s p ∧ address s p < s.params.memCapacity := by
  unfold operandFault at h
  by_cases hp : p.mode = .immediate
  · simp [hp] at h
  rw [if_neg hp] at h
  rcases effective_address_cases s p hp with ho | ⟨hno, a, haddr, hres⟩
  · rw [if_pos ho] at h
    cases h
  · rw [if_neg hno, haddr] at h
    by_cases hneg : a.toInt < 0
    · rw [if_pos hneg] at h
      cases h
    rw [if_neg hneg] at h
    split at h
    · cases h
    · next hcap =>
      have hint := toNat_of_nonneg (a := a) (by omega)
      have hin : a.toInt < s.params.memCapacity := by simpa using hcap
      rw [writeAddr_of_resolved hres, haddr, checkWrite, if_neg hneg, if_neg (by omega), toNat_toInt_of_nonneg (by omega)]
      exact ⟨rfl, by omega, hin⟩

/-- Settles O10: the two cases of the resolver. -/
theorem writeAddrByMode : Obligations.WriteAddrByMode := fun _ _ =>
  ⟨fun _ hk => writeAddr_of_fault hk, writeAddr_of_no_fault⟩

end Sys2Proof.Machine

/-! What an instruction does where it has a first fault and where it has none (R59, R72 to R83, R93, R94): the rule of
each shared step of a meaning, then each family of instructions, and O11 to O23 from it. -/

namespace Sys2Proof.Machine

open Sys2Proof.Safety

/-! ## Taking the first fault -/

/-- `t` is faulted, with the record of R93 for a fault of kind `k` of the instruction that starts in `s`. -/
def FaultTaken (s : State) (k : FaultKind) (t : State) : Prop :=
  t.st = .faulted ∧ t.fr = some { kind := k, ip := s.ip, value := none }

theorem faultTaken_takeFault {s s' : State} {c : FaultCause} (he : TapeExtended s s') (hv : c.value = none) :
    FaultTaken s c.kind (takeFault c s') := by
  simp only [FaultTaken, takeFault_st, takeFault_fr, he.ip, hv, and_self]

theorem FaultTaken.of_extended {s s' t : State} {k : FaultKind} (he : TapeExtended s s') (h : FaultTaken s' k t) :
    FaultTaken s k t := by
  rwa [FaultTaken, he.ip] at h

theorem andThen_of_fault {s : State} {p : Param} {k : FaultKind} (h : operandFault s false p = some k)
    (next : Word → State → Result) : ∃ t, (readOperand p s).andThen next = .next t ∧ FaultTaken s k t := by
  obtain ⟨c, rfl, hv, hread⟩ := readOperand_of_fault h
  rw [hread]
  exact ⟨_, rfl, faultTaken_takeFault (TapeExtended.refl s) hv⟩

theorem andThen_of_no_fault {s : State} {p : Param} (h : operandFault s false p = none) :
    ∃ s', ReadResult s p s' ∧ ∀ next : Word → State → Result, (readOperand p s).andThen next = next (value s p) s' := by
  obtain ⟨s', hread, hres⟩ := readOperand_of_no_fault h
  exact ⟨s', hres, fun next => by rw [hread]; rfl⟩

theorem overflowFault_eq_none {s : State} {x : Int} : overflowFault s x = none ↔ ¬ overflows s x = true := by
  simp [overflowFault]

theorem fit_of_no_overflowFault {s : State} {x : Int} (h : overflowFault s x = none) :
    fit s.params x = .ok (wrap64 x) :=
  fit_of_not_overflows (overflowFault_eq_none.mp h)

theorem fit_of_overflowFault {s : State} {x : Int} {k : FaultKind} (h : overflowFault s x = some k) :
    ∃ c, c.kind = k ∧ c.value = none ∧ fit s.params x = .error c := by
  by_cases ho : overflows s x = true <;> simp only [overflowFault, ho, if_true] at h
  · cases h
    exact ⟨.arithmeticOverflow, rfl, rfl, fit_of_overflows ho⟩
  · cases h

/-! ## Two read operands, as ADD, MUL, LT, EQ and the jumps have them -/

/-- The two reads of a binary meaning, going on with both words. -/
def readTwo (a b : Param) (s : State) (next : Word → Word → State → Result) : Result :=
  (readOperand a s).andThen fun x s1 => (readOperand b s1).andThen fun y s2 => next x y s2

theorem execBinary_eq_readTwo (f : Params → Word → Word → Except FaultCause Word) (a b c : Param) (s : State) :
    execBinary f a b c s = readTwo a b s fun x y s2 =>
      orFault (writeAddr c s) s2 fun d => orFault (f s.params x y) s2 fun r => .next (advance 4 (memWrite d r s2)) := rfl

theorem execJump_eq_readTwo (taken : Word → Bool) (a b : Param) (s : State) :
    execJump taken a b s = readTwo a b s fun x t s2 => if taken x then jumpTo t s2 else .next (advance 3 s2) := rfl

/-- `t` is the state after the read operands `a` and `b` were resolved in `s` without a fault. -/
structure ReadTwoResult (s : State) (a b : Param) (t : State) : Prop where
  extended : TapeExtended s t
  len      : t.len = lenAfterRead s b (lenAfterRead s a s.len)

theorem readTwo_of_no_fault {s : State} {a b : Param} (ha : operandFault s false a = none)
    (hb : operandFault s false b = none) :
    ∃ s', ReadTwoResult s a b s' ∧ ∀ next, readTwo a b s next = next (value s a) (value s b) s' := by
  obtain ⟨s1, ⟨he1, hlen1⟩, hnext1⟩ := andThen_of_no_fault ha
  obtain ⟨s2, ⟨he2, hlen2⟩, hnext2⟩ := andThen_of_no_fault ((he1.operandFault false b).trans hb)
  refine ⟨s2, ⟨he1.trans he2, ?_⟩, fun next => ?_⟩
  · rw [hlen2, he1.lenAfterRead, hlen1]
  · rw [readTwo, hnext1, hnext2, he1.value]

theorem readTwo_of_fault {s : State} {a b : Param} {k : FaultKind}
    (h : (operandFault s false a).or (operandFault s false b) = some k) (next : Word → Word → State → Result) :
    ∃ t, readTwo a b s next = .next t ∧ FaultTaken s k t := by
  rcases Option.or_eq_some_iff.mp h with ha | ⟨ha, hb⟩
  · exact andThen_of_fault ha _
  · obtain ⟨s1, ⟨he1, -⟩, hnext1⟩ := andThen_of_no_fault ha
    obtain ⟨t, ht, hfault⟩ := andThen_of_fault ((he1.operandFault false b).trans hb) fun y s2 => next (value s a) y s2
    exact ⟨t, (hnext1 _).trans ht, hfault.of_extended he1⟩

/-! ## ADD, MUL, LT, EQ -/

/-- With no fault of its operands and a result, a storing instruction completes (R61, R72 to R75). -/
theorem execBinary_of_no_fault {f : Params → Word → Word → Except FaultCause Word} {s : State} {a b c : Param} {r : Word}
    (h : binaryFault s a b c = none) (hr : f s.params (value s a) (value s b) = .ok r) :
    ∃ t, execBinary f a b c s = .next t ∧ memRead t (address s c).toNat = r ∧
      (∀ n, n ≠ (address s c).toNat → memRead t n = memRead s n) ∧
      t = { s with
        ip := s.ip + 4, mem := t.mem
        len := max (lenAfterRead s b (lenAfterRead s a s.len)) ((address s c).toNat + 1) } := by
  obtain ⟨ha, hbc⟩ := Option.or_eq_none_iff.mp h
  obtain ⟨hb, hc⟩ := Option.or_eq_none_iff.mp hbc
  obtain ⟨s2, ⟨he, hlen⟩, hnext⟩ := readTwo_of_no_fault ha hb
  obtain ⟨hd, -, -⟩ := writeAddr_of_no_fault hc
  refine ⟨advance 4 (memWrite (address s c).toNat r s2), ?_, ?_, fun n hn => ?_, ?_⟩
  · rw [execBinary_eq_readTwo, hnext, hd, hr]
    rfl
  · exact (memWrite_memRead _ _ r s2).trans (if_pos rfl)
  · exact (memWrite_memRead _ n r s2).trans ((if_neg hn).trans (he.read n))
  · rw [← hlen, ← memWrite_len (address s c).toNat r s2, memWrite_eq, he.eq_record]
    rfl

theorem execBinary_of_operand_fault {f : Params → Word → Word → Except FaultCause Word} {s : State} {a b c : Param}
    {k : FaultKind} (h : binaryFault s a b c = some k) : ∃ t, execBinary f a b c s = .next t ∧ FaultTaken s k t := by
  rw [binaryFault, ← Option.or_assoc] at h
  rw [execBinary_eq_readTwo]
  rcases Option.or_eq_some_iff.mp h with hab | ⟨hab, hc⟩
  · exact readTwo_of_fault hab _
  · obtain ⟨ha, hb⟩ := Option.or_eq_none_iff.mp hab
    obtain ⟨s2, ⟨he, -⟩, hnext⟩ := readTwo_of_no_fault ha hb
    obtain ⟨cause, rfl, hv, hd⟩ := writeAddr_of_fault hc
    rw [hnext, hd]
    exact ⟨_, rfl, faultTaken_takeFault he hv⟩

theorem execBinary_of_result_fault {f : Params → Word → Word → Except FaultCause Word} {s : State} {a b c : Param}
    {cause : FaultCause} (h : binaryFault s a b c = none) (hv : cause.value = none)
    (hr : f s.params (value s a) (value s b) = .error cause) :
    ∃ t, execBinary f a b c s = .next t ∧ FaultTaken s cause.kind t := by
  obtain ⟨ha, hbc⟩ := Option.or_eq_none_iff.mp h
  obtain ⟨hb, hc⟩ := Option.or_eq_none_iff.mp hbc
  obtain ⟨s2, ⟨he, -⟩, hnext⟩ := readTwo_of_no_fault ha hb
  obtain ⟨hd, -, -⟩ := writeAddr_of_no_fault hc
  rw [execBinary_eq_readTwo, hnext, hd, hr]
  exact ⟨_, rfl, faultTaken_takeFault he hv⟩

/-- ADD and MUL, whose result is an exact integer `x` under the overflow policy: their operands' fault, then
the overflow. -/
theorem execBinary_of_fit_fault {f : Params → Word → Word → Except FaultCause Word} {s : State} {a b c : Param} {x : Int}
    {k : FaultKind} (hf : f s.params (value s a) (value s b) = fit s.params x)
    (h : (binaryFault s a b c).or (overflowFault s x) = some k) :
    ∃ t, execBinary f a b c s = .next t ∧ FaultTaken s k t := by
  rcases Option.or_eq_some_iff.mp h with hop | ⟨hop, ho⟩
  · exact execBinary_of_operand_fault hop
  · obtain ⟨cause, rfl, hv, hr⟩ := fit_of_overflowFault ho
    exact execBinary_of_result_fault hop hv (hf.trans hr)

/-- Settles O11: the sum, once the policy has let it pass, is the word stored. -/
theorem addResult : Obligations.AddResult := by
  intro s a b c h
  obtain ⟨hop, ho⟩ := Option.or_eq_none_iff.mp h
  obtain ⟨t, ht, hread, hother, heq⟩ := execBinary_of_no_fault (f := add64) hop (fit_of_no_overflowFault ho)
  exact ⟨t, ht, by rw [hread, toInt_wrap64_eq_policyValue], hother, heq⟩

/-- Settles O12: the product, once the policy has let it pass, is the word stored. -/
theorem mulResult : Obligations.MulResult := by
  intro s a b c h
  obtain ⟨hop, ho⟩ := Option.or_eq_none_iff.mp h
  obtain ⟨t, ht, hread, hother, heq⟩ := execBinary_of_no_fault (f := mul64) hop (fit_of_no_overflowFault ho)
  exact ⟨t, ht, by rw [hread, toInt_wrap64_eq_policyValue], hother, heq⟩

theorem boolWord_decide (p : Prop) [Decidable p] : boolWord (decide p) = if p then 1 else 0 := by
  by_cases h : p <;> simp [boolWord, h]

/-- Settles O13: the comparison has a result for every two words. -/
theorem lessThanResult : Obligations.LessThanResult := by
  intro s a b c h
  obtain ⟨t, ht, hread, hother, heq⟩ := execBinary_of_no_fault (f := lessThan64) h rfl
  exact ⟨t, ht, hread.trans (boolWord_decide _), hother, heq⟩

/-- Settles O14: words are equal exactly where their values are. -/
theorem equalResult : Obligations.EqualResult := by
  intro s a b c h
  obtain ⟨t, ht, hread, hother, heq⟩ := execBinary_of_no_fault (f := equal64) h rfl
  refine ⟨t, ht, ?_, hother, heq⟩
  rw [hread, boolWord_decide]
  simp only [BitVec.toInt_inj]

/-! ## ARB -/

theorem execArb_of_no_fault {s : State} {a : Param} (ha : operandFault s false a = none)
    (ho : overflowFault s (s.rb.toInt + (value s a).toInt) = none) :
    ∃ s', ReadResult s a s' ∧
      execArb a s = .next (advance 2 { s' with rb := wrap64 (s.rb.toInt + (value s a).toInt) }) := by
  obtain ⟨s', hres, hnext⟩ := andThen_of_no_fault ha
  refine ⟨s', hres, ?_⟩
  rw [execArb, hnext, hres.extended.params, hres.extended.rb, add64, fit_of_no_overflowFault ho]
  rfl

theorem execArb_of_fault {s : State} {a : Param} {k : FaultKind}
    (h : (operandFault s false a).or (overflowFault s (s.rb.toInt + (value s a).toInt)) = some k) :
    ∃ t, execArb a s = .next t ∧ FaultTaken s k t := by
  rcases Option.or_eq_some_iff.mp h with ha | ⟨ha, ho⟩
  · exact andThen_of_fault ha _
  · obtain ⟨s', ⟨he, -⟩, hnext⟩ := andThen_of_no_fault ha
    obtain ⟨cause, rfl, hv, hr⟩ := fit_of_overflowFault ho
    rw [execArb, hnext, he.params, he.rb, add64, hr]
    exact ⟨_, rfl, faultTaken_takeFault he hv⟩

/-- Settles O15: the read leaves `RB` as it was, so the sum is of the old `RB`. -/
theorem adjustRelativeBaseResult : Obligations.AdjustRelativeBaseResult := by
  intro s a m2 m3 h
  obtain ⟨ha, ho⟩ := Option.or_eq_none_iff.mp h
  obtain ⟨s', ⟨he, hlen⟩, hexec⟩ := execArb_of_no_fault ha ho
  refine ⟨_, hexec, toInt_wrap64_eq_policyValue _, he.read, ?_⟩
  rw [← hlen, he.eq_record]
  rfl

/-! ## IN and OUT -/

theorem execIn_of_fault {s : State} {a : Param} {k : FaultKind} (h : operandFault s true a = some k) :
    ∃ t, execIn a s = .next t ∧ FaultTaken s k t := by
  obtain ⟨cause, rfl, hv, hd⟩ := writeAddr_of_fault h
  rw [execIn, hd]
  exact ⟨_, rfl, faultTaken_takeFault (TapeExtended.refl s) hv⟩

theorem execIn_of_no_fault_cons {s : State} {a : Param} {v : Word} {rest : List Word}
    (h : operandFault s true a = none) (hq : s.iq = v :: rest) :
    execIn a s = .next (advance 2 (memWrite (address s a).toNat v { s with iq := rest })) := by
  obtain ⟨hd, -, -⟩ := writeAddr_of_no_fault h
  simp only [execIn, hd, orFault, hq]

theorem execIn_of_no_fault_nil {s : State} {a : Param} (h : operandFault s true a = none) (hq : s.iq = []) :
    execIn a s = .next (block s) := by
  obtain ⟨hd, -, -⟩ := writeAddr_of_no_fault h
  simp only [execIn, hd, orFault, hq]

/-- Settles O16: the write goes to the state without the front of `IQ`. -/
theorem inputResult : Obligations.InputResult := by
  intro s a m2 m3 v rest h hq
  refine ⟨_, execIn_of_no_fault_cons h hq, ?_, fun n hn => ?_, ?_⟩
  · exact (memWrite_memRead _ _ v _).trans (if_pos rfl)
  · exact (memWrite_memRead _ n v _).trans (if_neg hn)
  · rw [← memWrite_len (address s a).toNat v { s with iq := rest }, memWrite_eq]
    rfl

/-- Settles O17: IN's arm of the empty queue. -/
theorem inputBlocks : Obligations.InputBlocks := fun _ _ _ _ h hq => execIn_of_no_fault_nil h hq

theorem execOut_of_fault {s : State} {a : Param} {k : FaultKind} (h : operandFault s false a = some k) :
    ∃ t, execOut a s = .next t ∧ FaultTaken s k t :=
  andThen_of_fault h _

/-- Settles O18: the read changes no queue, so the word is appended to the old `OB`. -/
theorem outputResult : Obligations.OutputResult := by
  intro s a m2 m3 h
  obtain ⟨s', ⟨he, hlen⟩, hnext⟩ := andThen_of_no_fault h
  refine ⟨_, hnext _, he.read, ?_⟩
  rw [← hlen, he.eq_record]
  rfl

/-! ## JNZ, JZ, HALT -/

theorem execJump_of_no_fault {taken : Word → Bool} {s : State} {a b : Param}
    (h : jumpFault s (taken (value s a)) a b = none) :
    ∃ t, execJump taken a b s = .next t ∧ (∀ n, memRead t n = memRead s n) ∧
      t = { s with
        ip := if taken (value s a) = true then value s b else s.ip + 3
        mem := t.mem, len := lenAfterRead s b (lenAfterRead s a s.len) } := by
  obtain ⟨ha, hbt⟩ := Option.or_eq_none_iff.mp h
  obtain ⟨hb, htarget⟩ := Option.or_eq_none_iff.mp hbt
  obtain ⟨s2, ⟨he, hlen⟩, hnext⟩ := readTwo_of_no_fault ha hb
  rw [execJump_eq_readTwo, hnext, ← hlen]
  by_cases ht : taken (value s a) = true
  · have hnonneg : ¬ (value s b).toInt < 0 := fun hn => by simp [ht, hn] at htarget
    rw [if_pos ht, if_pos ht, jumpTo, if_neg hnonneg]
    refine ⟨_, rfl, he.read, ?_⟩
    rw [he.eq_record]
  · rw [if_neg ht, if_neg ht]
    refine ⟨_, rfl, he.read, ?_⟩
    rw [he.eq_record]
    rfl

theorem execJump_of_fault {taken : Word → Bool} {s : State} {a b : Param} {k : FaultKind}
    (h : jumpFault s (taken (value s a)) a b = some k) : ∃ t, execJump taken a b s = .next t ∧ FaultTaken s k t := by
  rw [jumpFault, ← Option.or_assoc] at h
  rw [execJump_eq_readTwo]
  rcases Option.or_eq_some_iff.mp h with hab | ⟨hab, htarget⟩
  · exact readTwo_of_fault hab _
  · obtain ⟨ha, hb⟩ := Option.or_eq_none_iff.mp hab
    obtain ⟨s2, ⟨he, -⟩, hnext⟩ := readTwo_of_no_fault ha hb
    split at htarget
    · next hneg =>
      cases htarget
      rw [hnext, if_pos hneg.1, jumpTo, if_pos hneg.2]
      exact ⟨_, rfl, faultTaken_takeFault he rfl⟩
    · cases htarget

theorem isNonzero_eq (x : Word) : isNonzero x = decide (x ≠ 0) :=
  Bool.eq_iff_iff.mpr (by simp only [isNonzero, bne_iff_ne, decide_eq_true_eq])

theorem isZero_eq (x : Word) : isZero x = decide (x = 0) :=
  Bool.eq_iff_iff.mpr (by simp only [isZero, beq_iff_eq, decide_eq_true_eq])

/-- Settles O19: the jump is taken exactly on a word that is not 0. -/
theorem jumpNonzeroResult : Obligations.JumpNonzeroResult := by
  intro s a b m3 h
  rw [firstFault, ← isNonzero_eq] at h
  obtain ⟨t, ht, hread, heq⟩ := execJump_of_no_fault h
  refine ⟨t, ht, hread, ?_⟩
  simpa only [isNonzero_eq, decide_eq_true_eq, ne_eq, ite_not] using heq

/-- Settles O20: the jump is taken exactly on the word 0. -/
theorem jumpZeroResult : Obligations.JumpZeroResult := by
  intro s a b m3 h
  rw [firstFault, ← isZero_eq] at h
  obtain ⟨t, ht, hread, heq⟩ := execJump_of_no_fault h
  refine ⟨t, ht, hread, ?_⟩
  simpa only [isZero_eq, decide_eq_true_eq] using heq

theorem exec_halt (s : State) (m1 m2 m3 : Mode) :
    exec (.halt m1 m2 m3) s = .next (advance 1 { s with st := .halted }) := rfl

/-- Settles O21: HALT's arm. -/
theorem haltResult : Obligations.HaltResult := fun s m1 m2 m3 => exec_halt s m1 m2 m3

/-! ## Every instruction -/

/-- The first fault of an instruction is taken (R93, R94). -/
theorem exec_of_fault {i : Instr} {s : State} {k : FaultKind} (h : firstFault i s = some k) :
    ∃ t, exec i s = .next t ∧ FaultTaken s k t := by
  cases i with
  | add a b c => exact execBinary_of_fit_fault (f := add64) rfl h
  | mul a b c => exact execBinary_of_fit_fault (f := mul64) rfl h
  | lt a b c | eq a b c => exact execBinary_of_operand_fault h
  | inp a m2 m3 => exact execIn_of_fault h
  | out a m2 m3 => exact execOut_of_fault h
  | arb a m2 m3 => exact execArb_of_fault h
  | jnz a b m3 =>
    rw [firstFault, ← isNonzero_eq] at h
    exact execJump_of_fault h
  | jz a b m3 =>
    rw [firstFault, ← isZero_eq] at h
    exact execJump_of_fault h
  | halt m1 m2 m3 => cases h

/-- Without a first fault an instruction keeps the fault record, and the status unless it halts or blocks (R60, R92). -/
theorem exec_of_no_fault {i : Instr} {s : State} (h : firstFault i s = none) :
    ∃ t, exec i s = .next t ∧ t.fr = s.fr ∧ (t.st = s.st ∨ t.st = .halted ∨ t.st = .blocked) := by
  cases i with
  | add a b c =>
    obtain ⟨t, ht, -, -, heq⟩ := addResult s a b c h
    exact ⟨t, ht, by rw [heq], .inl (by rw [heq])⟩
  | mul a b c =>
    obtain ⟨t, ht, -, -, heq⟩ := mulResult s a b c h
    exact ⟨t, ht, by rw [heq], .inl (by rw [heq])⟩
  | lt a b c =>
    obtain ⟨t, ht, -, -, heq⟩ := lessThanResult s a b c h
    exact ⟨t, ht, by rw [heq], .inl (by rw [heq])⟩
  | eq a b c =>
    obtain ⟨t, ht, -, -, heq⟩ := equalResult s a b c h
    exact ⟨t, ht, by rw [heq], .inl (by rw [heq])⟩
  | arb a m2 m3 =>
    obtain ⟨t, ht, -, -, heq⟩ := adjustRelativeBaseResult s a m2 m3 h
    exact ⟨t, ht, by rw [heq], .inl (by rw [heq])⟩
  | out a m2 m3 =>
    obtain ⟨t, ht, -, heq⟩ := outputResult s a m2 m3 h
    exact ⟨t, ht, by rw [heq], .inl (by rw [heq])⟩
  | jnz a b m3 =>
    obtain ⟨t, ht, -, heq⟩ := jumpNonzeroResult s a b m3 h
    exact ⟨t, ht, by rw [heq], .inl (by rw [heq])⟩
  | jz a b m3 =>
    obtain ⟨t, ht, -, heq⟩ := jumpZeroResult s a b m3 h
    exact ⟨t, ht, by rw [heq], .inl (by rw [heq])⟩
  | inp a m2 m3 =>
    rcases hq : s.iq with _ | ⟨v, rest⟩
    · exact ⟨_, execIn_of_no_fault_nil h hq, rfl, .inr (.inr rfl)⟩
    · exact ⟨_, execIn_of_no_fault_cons h hq, by simp, .inl (by simp)⟩
  | halt m1 m2 m3 => exact ⟨_, exec_halt s m1 m2 m3, rfl, .inr (.inl rfl)⟩

/-- Settles O22, family by family. -/
theorem firstFaultIsTaken : Obligations.FirstFaultIsTaken := fun _ _ _ h => exec_of_fault h

/-- Settles O23: an instruction without a first fault leaves a running core running, halted or blocked. -/
theorem noFaultWithoutCause : Obligations.NoFaultWithoutCause := by
  intro i s hs h
  obtain ⟨t, ht, hfr, hst⟩ := exec_of_no_fault h
  refine ⟨t, ht, ?_, hfr⟩
  rcases hst with hst | hst | hst <;> simp [hst, hs]

end Sys2Proof.Machine

/-! All that an instruction can do, said once (R59 to R62, R72 to R83); the frames and the monotone tape that follow from
it, and O8, O27, O28, O29, O32, O33. -/

namespace Sys2Proof.Machine

open Sys2Proof.Safety

/-! ## The effect of an instruction -/

/-- ADD, MUL, LT, EQ: the instructions that store a computed word (R72 to R75). -/
def IsStoringAlu (i : Instr) (c : Param) : Prop := ∃ a b, i = .add a b c ∨ i = .mul a b c ∨ i = .lt a b c ∨ i = .eq a b c

/-- JNZ, JZ (R81, R82). -/
def IsJump (i : Instr) : Prop := ∃ a b m3, i = .jnz a b m3 ∨ i = .jz a b m3

/-- The next states of an instruction that starts in `s`: fault entry, or one of its family's effects on a state that its
reads may have lengthened the tape of. -/
inductive Effect (s : State) : Instr → State → Prop
  | fault {i : Instr} {t : State} (h : Faulted s t) : Effect s i t
  | store {i : Instr} {c : Param} {d : Nat} {r : Word} {s' : State} (hi : IsStoringAlu i c)
      (hd : writeAddr c s = .ok d) (he : TapeExtended s s') : Effect s i (advance 4 (memWrite d r s'))
  | input {a : Param} {m2 m3 : Mode} {d : Nat} {v : Word} {rest : List Word} (hd : writeAddr a s = .ok d)
      (hq : s.iq = v :: rest) : Effect s (.inp a m2 m3) (advance 2 (memWrite d v { s with iq := rest }))
  | block {a : Param} {m2 m3 : Mode} {d : Nat} (hd : writeAddr a s = .ok d) (hq : s.iq = []) :
      Effect s (.inp a m2 m3) (block s)
  | output {a : Param} {m2 m3 : Mode} {x : Word} {s' : State} (he : TapeExtended s s') :
      Effect s (.out a m2 m3) (advance 2 { s' with ob := s'.ob ++ [x] })
  | jump {i : Instr} {target : Word} {s' : State} (hi : IsJump i) (ht : 0 ≤ target.toInt) (he : TapeExtended s s') :
      Effect s i { s' with ip := target }
  | skip {i : Instr} {s' : State} (hi : IsJump i) (he : TapeExtended s s') : Effect s i (advance 3 s')
  | adjust {a : Param} {m2 m3 : Mode} {r : Word} {s' : State} (he : TapeExtended s s') :
      Effect s (.arb a m2 m3) (advance 2 { s' with rb := r })
  | halt {m1 m2 m3 : Mode} : Effect s (.halt m1 m2 m3) (advance 1 { s with st := .halted })

theorem execBinary_effect {f : Params → Word → Word → Except FaultCause Word} {i : Instr} {a b c : Param} {s t : State}
    (hi : IsStoringAlu i c) (h : execBinary f a b c s = .next t) : Effect s i t := by
  rcases execBinary_cases f a b c s with ⟨x, s1, y, s2, d, r, -, -, hd, -, he, h'⟩ | ⟨u, hu, h'⟩ <;> cases h'.symm.trans h
  · exact .store hi hd he
  · exact .fault hu

theorem execJump_effect {taken : Word → Bool} {i : Instr} {a b : Param} {s t : State} (hi : IsJump i)
    (h : execJump taken a b s = .next t) : Effect s i t := by
  rcases execJump_cases taken a b s with ⟨x, s1, y, s2, -, -, he, ⟨-, hy, h'⟩ | ⟨-, h'⟩⟩ | ⟨u, hu, h'⟩ <;>
    cases h'.symm.trans h
  · exact .jump hi hy he
  · exact .skip hi he
  · exact .fault hu

theorem execIn_effect {a : Param} {m2 m3 : Mode} {s t : State} (h : execIn a s = .next t) :
    Effect s (.inp a m2 m3) t := by
  rcases execIn_cases a s with ⟨d, v, rest, hd, hq, h'⟩ | ⟨d, hd, hq, h'⟩ | ⟨c, -, h'⟩ <;> cases h'.symm.trans h
  · exact .input hd hq
  · exact .block hd hq
  · exact .fault ⟨c, s, TapeExtended.refl s, rfl⟩

theorem execOut_effect {a : Param} {m2 m3 : Mode} {s t : State} (h : execOut a s = .next t) :
    Effect s (.out a m2 m3) t := by
  rcases execOut_cases a s with ⟨x, s1, -, he, h'⟩ | ⟨u, hu, h'⟩ <;> cases h'.symm.trans h
  · exact .output he
  · exact .fault hu

theorem execArb_effect {a : Param} {m2 m3 : Mode} {s t : State} (h : execArb a s = .next t) :
    Effect s (.arb a m2 m3) t := by
  rcases execArb_cases a s with ⟨x, s1, r, -, -, he, h'⟩ | ⟨u, hu, h'⟩ <;> cases h'.symm.trans h
  · exact .adjust he
  · exact .fault hu

/-- Every next state of an instruction is one of its effects. -/
theorem exec_effect {i : Instr} {s t : State} (h : exec i s = .next t) : Effect s i t := by
  cases i with
  | add a b c => exact execBinary_effect ⟨a, b, .inl rfl⟩ h
  | mul a b c => exact execBinary_effect ⟨a, b, .inr (.inl rfl)⟩ h
  | lt a b c => exact execBinary_effect ⟨a, b, .inr (.inr (.inl rfl))⟩ h
  | eq a b c => exact execBinary_effect ⟨a, b, .inr (.inr (.inr rfl))⟩ h
  | jnz a b m3 => exact execJump_effect ⟨a, b, m3, .inl rfl⟩ h
  | jz a b m3 => exact execJump_effect ⟨a, b, m3, .inr rfl⟩ h
  | inp a m2 m3 => exact execIn_effect h
  | out a m2 m3 => exact execOut_effect h
  | arb a m2 m3 => exact execArb_effect h
  | halt m1 m2 m3 =>
    cases h
    exact .halt

/-! ## The tape length and the parameters -/

theorem Effect.len_le {i : Instr} {s t : State} (h : Effect s i t) : s.len ≤ t.len := by
  cases h with
  | fault hf =>
    obtain ⟨c, s', he, rfl⟩ := hf
    exact he.len
  | store hi hd he => exact he.len.trans (by simp [memWrite_len])
  | input hd hq => simp [memWrite_len]
  | block hd hq | halt => exact Nat.le_refl _
  | output he | jump hi ht he | skip hi he | adjust he => exact he.len

theorem Effect.params_eq {i : Instr} {s t : State} (h : Effect s i t) : t.params = s.params := by
  cases h with
  | fault hf =>
    obtain ⟨c, s', he, rfl⟩ := hf
    exact he.params
  | store hi hd he => simp [he.params]
  | input hd hq => simp
  | block hd hq | halt => rfl
  | output he | jump hi ht he | skip hi he | adjust he => exact he.params

/-- A relation from each state to itself, to the state with the decoder's fault and to every effect of an instruction
holds between the states before and after a step. -/
theorem step_rel {R : State → State → Prop} {s t : State} (hrefl : R s s) (hfault : ∀ c, R s (takeFault c s))
    (heffect : ∀ i, fetch s = .ok i → Effect s i t → R s t) (h : step s = .next t) : R s t := by
  by_cases hs : s.st = .running
  · rcases step_running_cases hs h with ⟨e, -, rfl⟩ | ⟨i, hf, hx⟩
    · exact hfault _
    · exact heffect i hf (exec_effect hx)
  · cases step_not_running hs h
    exact hrefl

theorem step_len_le {s t : State} (h : step s = .next t) : s.len ≤ t.len :=
  step_rel (R := fun s t => s.len ≤ t.len) le_rfl (fun _ => le_rfl) (fun _ _ he => he.len_le) h

theorem step_params {s t : State} (h : step s = .next t) : t.params = s.params :=
  step_rel (R := fun s t => t.params = s.params) rfl (fun _ => rfl) (fun _ _ he => he.params_eq) h

/-! ## From steps to a RUN and to host commands -/

/-- A relation that steps and resuming keep, and that composes, holds between the states before and after a RUN (R65). -/
theorem run_rel {R : State → State → Prop} (hrefl : ∀ s, R s s) (htrans : ∀ {s t u}, R s t → R t u → R s u)
    (hstep : ∀ {s t}, step s = .next t → R s t) (hresume : ∀ s, s.st = .blocked → R s (resume s)) {fuel : Nat}
    {s t : State} {r : RunResult} (h : run fuel s = some (r, t)) : R s t := by
  unfold run at h
  cases hs : s.st <;> simp only [hs] at h
  case running => exact runLoop_rel (R := R) htrans hstep h
  case blocked => exact htrans (hresume s hs) (runLoop_rel (R := R) htrans hstep h)
  case halted | faulted =>
    cases h
    exact hrefl s

theorem hostCommand_run_eq_some {fuel : Nat} {s t : State} {r : HostReply}
    (h : hostCommand fuel .run (some s) = some (r, some t)) : ∃ r', run fuel s = some (r', t) := by
  rw [hostCommand_run, Option.map_eq_some_iff] at h
  obtain ⟨⟨r', t'⟩, hrun, heq⟩ := h
  cases heq
  exact ⟨r', hrun⟩

/-- LOAD on an existing state keeps its parameters, and either resets it or is refused (R107). -/
theorem hostCommand_load_eq_some {fuel : Nat} {params : Params} {P : List Word} {s t : State} {r : HostReply}
    (h : hostCommand fuel (.load params P) (some s) = some (r, some t)) : load s.params P = some t ∨ t = s := by
  simp only [hostCommand, loadParams] at h
  rcases hl : load s.params P with _ | u <;> rw [hl] at h <;> cases h
  · exact .inr rfl
  · exact .inl rfl

theorem load_eq_some {params : Params} {P : List Word} {t : State} :
    load params P = some t ↔ P.length ≤ params.memCapacity ∧ loaded params P = t := by
  simp [load]

/-- Settles O8: a step's effects only lengthen the tape, so a RUN does, and the other commands do not touch it. -/
theorem tapeNeverShrinks : Obligations.TapeNeverShrinks := by
  refine ⟨fun i s t h _ => (exec_effect h).len_le, fun p s t v h => (readOperand_ok_extended h).len,
    fun fuel c s t r hload h _ => ?_⟩
  by_cases hrun : c = .run
  · subst hrun
    obtain ⟨r', hr⟩ := hostCommand_run_eq_some h
    exact run_rel (R := fun s t => s.len ≤ t.len) (fun _ => le_rfl) le_trans step_len_le (fun _ _ => le_rfl) hr
  · rw [hostCommand_changes_only_queues hrun hload h]

/-- Settles O33: no effect touches the parameters, and a LOAD keeps those of the state it replaces. -/
theorem parametersNeverChange : Obligations.ParametersNeverChange := by
  refine ⟨fun s t h => step_params h, fun fuel c s t r h => ?_⟩
  by_cases hrun : c = .run
  · subst hrun
    obtain ⟨r', hr⟩ := hostCommand_run_eq_some h
    exact run_rel (R := fun s t => t.params = s.params) (fun _ => rfl) (fun h k => k.trans h) step_params
      (fun _ _ => rfl) hr
  by_cases hload : ∃ params P, c = .load params P
  · obtain ⟨params, P, rfl⟩ := hload
    rcases hostCommand_load_eq_some h with hl | rfl
    · obtain ⟨-, rfl⟩ := load_eq_some.mp hl
      rfl
    · rfl
  · rw [hostCommand_changes_only_queues hrun (fun params P hc => hload ⟨params, P, hc⟩) h]

/-! ## Frames -/

/-- A write after reads changes the memory and the tape length only. -/
theorem TapeExtended.memWrite_eq_record {s s' : State} (he : TapeExtended s s') (d : Nat) (r : Word) :
    memWrite d r s' = { s with mem := (memWrite d r s').mem, len := (memWrite d r s').len } :=
  (memWrite_eq d r s').trans (by simp only [he.ip, he.rb, he.iq, he.ob, he.st, he.fr, he.params])

/-- Settles O27: the reads leave the tape as it is unless READ_EXTENDS, and the write reaches one address. -/
theorem storingAluFrame : Obligations.StoringAluFrame := by
  intro i a b c s t hi h hst
  cases exec_effect h with
  | fault hf => exact absurd hf.st_eq hst
  | @store _ c' d r s' hi' hd he =>
    obtain rfl : c' = c := by
      obtain ⟨a', b', hi'⟩ := hi'
      rcases hi with rfl | rfl | rfl | rfl <;> simp_all
    refine ⟨?_, d, hd, fun n hn => ?_, fun hread hlt => ?_⟩
    · conv_lhs => rw [he.memWrite_eq_record]
      simp [advance, he.ip]
    · exact (memWrite_memRead d n r s').trans ((if_neg hn).trans (he.read n))
    · rw [he.fixed hread]
      exact (memWrite_len d r s).trans (max_eq_left hlt)
  | jump hi' _ _ | skip hi' _ =>
    obtain ⟨a', b', m3, hi'⟩ := hi'
    rcases hi with rfl | rfl | rfl | rfl <;> simp at hi'
  | input | block | output | adjust | halt => simp at hi

/-- Settles O28: IN stores the front of `IQ`, or blocks and changes the status alone. -/
theorem inputFrame : Obligations.InputFrame := by
  intro a m2 m3 s t h hst
  cases exec_effect h with
  | fault hf => exact absurd hf.st_eq hst
  | @input _ _ _ d v rest hd hq =>
    refine ⟨?_, .inr (by simp [hq]), .inl (by simp), d, hd, fun n hn => ?_, fun hlt => ?_⟩
    · conv_lhs => rw [memWrite_eq]
      simp [advance]
    · exact (memWrite_memRead d n v _).trans (if_neg hn)
    · exact (memWrite_len d v _).trans (max_eq_left hlt)
  | @block _ _ _ d hd hq => exact ⟨rfl, .inl rfl, .inr rfl, d, hd, fun _ _ => rfl, fun _ => rfl⟩
  | store hi =>
    obtain ⟨a', b', hi⟩ := hi
    simp at hi
  | jump hi | skip hi =>
    obtain ⟨a', b', m3, hi⟩ := hi
    simp at hi

/-- Settles O29: what reads leave of the state, and the one field each of these instructions sets. -/
theorem nonStoringFrame : Obligations.NonStoringFrame := by
  intro i s t hw h hst
  cases exec_effect h with
  | fault hf => exact absurd hf.st_eq hst
  | store hi =>
    obtain ⟨a, b, rfl | rfl | rfl | rfl⟩ := hi <;> cases hw
  | input | block => cases hw
  | @output a m2 m3 x s' he =>
    exact ⟨he.read, fun hr => by rw [he.fixed hr]; exact ⟨rfl, rfl⟩, he.iq, he.fr, he.params, fun _ => he.rb,
      fun hi => absurd rfl hi, fun _ => he.st⟩
  | @adjust a m2 m3 r s' he =>
    exact ⟨he.read, fun hr => by rw [he.fixed hr]; exact ⟨rfl, rfl⟩, he.iq, he.fr, he.params, fun hi => absurd rfl hi,
      fun _ => he.ob, fun _ => he.st⟩
  | jump _ _ he | skip _ he =>
    exact ⟨he.read, fun hr => by rw [he.fixed hr]; exact ⟨rfl, rfl⟩, he.iq, he.fr, he.params, fun _ => he.rb,
      fun _ => he.ob, fun _ => he.st⟩
  | halt => exact ⟨fun _ => rfl, fun _ => ⟨rfl, rfl⟩, rfl, rfl, rfl, fun _ => rfl, fun _ => rfl, fun hi => absurd rfl hi⟩

theorem Effect.rb_eq_or_arb {i : Instr} {s t : State} (h : Effect s i t) :
    t.rb = s.rb ∨ ∃ a m2 m3, i = .arb a m2 m3 := by
  cases h with
  | fault hf =>
    obtain ⟨c, s', he, rfl⟩ := hf
    exact .inl he.rb
  | store hi hd he => exact .inl (by simp [he.rb])
  | input hd hq => exact .inl (by simp)
  | block hd hq | halt => exact .inl rfl
  | output he | jump hi ht he | skip hi he => exact .inl he.rb
  | @adjust a m2 m3 => exact .inr ⟨a, m2, m3, rfl⟩

/-- Settles O32: only ARB's effect sets `RB`. -/
theorem relativeBaseOnlyByArb : Obligations.RelativeBaseOnlyByArb := by
  intro s t h _ hrb
  refine step_rel (R := fun s t => t.rb ≠ s.rb → ∃ a m2 m3, fetch s = .ok (.arb a m2 m3)) (fun hn => absurd rfl hn)
    (fun _ hn => absurd rfl hn) (fun i hf he hn => ?_) h hrb
  rcases he.rb_eq_or_arb with hkept | ⟨a, m2, m3, rfl⟩
  · exact absurd hkept hn
  · exact ⟨a, m2, m3, hf⟩

end Sys2Proof.Machine

/-! The step (R60, R63): its equations, the faults it takes, the status it leaves, and O24, O25, O26, O30, O31, O34 from
it. -/

namespace Sys2Proof.Machine

open Sys2Proof.Safety

/-! ## The equations of a step -/

theorem step_of_fetch_ok {s : State} {i : Instr} (hs : s.st = .running) (hf : fetch s = .ok i) :
    step s = exec i s := by
  simp only [step, engineStep, hs, runInstruction, hf]

theorem step_of_fetch_error {s : State} {e : DecodeError} (hs : s.st = .running) (hf : fetch s = .error e) :
    step s = .next (takeFault (causeOfDecode e) s) := by
  simp only [step, engineStep, hs, runInstruction, hf]

/-- Settles O31: each status but RUNNING has an arm of its own, which answers the same state. -/
theorem stepOnlyWhileRunning : Obligations.StepOnlyWhileRunning := by
  intro s hs
  cases hst : s.st with
  | running => exact absurd hst hs
  | halted | blocked | faulted => simp only [step, engineStep, hst]

/-- The instruction a decoded word stands for has at most three parameter words (R42). -/
theorem decode_congr {f g : Nat → Word} (h : ∀ k, k < 4 → f k = g k) : decode f = decode g := by
  have h0 := h 0 (by decide)
  have h1 := h 1 (by decide)
  have h2 := h 2 (by decide)
  have h3 := h 3 (by decide)
  have hinstr : ∀ d : Decoded, d.toInstr f = d.toInstr g := fun d => by simp only [Decoded.toInstr, h1, h2, h3]
  simp only [decode, h0, hinstr]

/-- Settles O30: the decoder reads no word but the four that agree. -/
theorem stepRunsDecodedInstruction : Obligations.StepRunsDecodedInstruction := by
  intro s ws i hs hdec hmem
  exact step_of_fetch_ok hs ((decode_congr hmem).trans hdec)

/-! ## The decoder's faults -/

theorem decode_eq_error {f : Nat → Word} {e : DecodeError} : decode f = .error e ↔ decodeOpcodeWord (f 0) = .error e := by
  unfold decode
  rcases decodeOpcodeWord (f 0) with e' | d <;> simp

theorem fetch_eq_error {s : State} {e : DecodeError} :
    fetch s = .error e ↔ decodeOpcodeWord (memRead s s.ip.toNat) = .error e :=
  decode_eq_error

/-- Settles O24: fault entry records the fetch address, and the decoder names the word or its first bad digit. -/
theorem decodeFaultIsTaken : Obligations.DecodeFaultIsTaken := by
  refine fun s e hs hf => ⟨_, step_of_fetch_error hs hf, rfl, ?_, ?_⟩
  · rintro w rfl
    obtain ⟨hw, -⟩ := decodeOpcodeWord_illegalOpcode_iff.mp (fetch_eq_error.mp hf)
    exact ⟨hw, rfl⟩
  · rintro d rfl
    obtain ⟨-, j, -, hd, hbad, -⟩ := decodeOpcodeWord_invalidParameterMode_iff.mp (fetch_eq_error.mp hf)
    exact ⟨hbad, by unfold decimalDigit at hd; omega, rfl⟩

/-- At or beyond the tape length the fetched word is 0, which is no opcode (R63). -/
theorem fetch_beyond_tape {s : State} (h : s.len ≤ s.ip.toNat) : fetch s = .error (.illegalOpcode 0) := by
  rw [fetch_eq_error, memRead, if_neg (by omega)]
  decide

theorem ip_lt_len_of_fetch_ok {s : State} {i : Instr} (h : fetch s = .ok i) : s.ip.toNat < s.len := by
  by_contra hlen
  cases h.symm.trans (fetch_beyond_tape (by omega))

/-- Settles O25: the word fetched there is 0. -/
theorem runningOffTheEndFaults : Obligations.RunningOffTheEndFaults := fun _ hs hlen =>
  ⟨_, step_of_fetch_error hs (fetch_beyond_tape hlen), rfl, rfl⟩

/-! ## The status after a step -/

/-- A running core faults on an instruction exactly where it has a first fault (R94). -/
theorem exec_faulted_iff {i : Instr} {s t : State} (hs : s.st = .running) (h : exec i s = .next t) :
    t.st = .faulted ↔ firstFault i s ≠ none := by
  rcases hff : firstFault i s with _ | k
  · obtain ⟨t', ht, -, hst⟩ := exec_of_no_fault hff
    cases ht.symm.trans h
    rcases hst with hst | hst | hst <;> simp [hst, hs]
  · obtain ⟨t', ht, hst, -⟩ := exec_of_fault hff
    cases ht.symm.trans h
    simp [hst]

theorem exec_halted_iff {i : Instr} {s t : State} (hs : s.st = .running) (h : exec i s = .next t) :
    t.st = .halted ↔ ∃ m1 m2 m3, i = .halt m1 m2 m3 := by
  constructor
  · intro ht
    rcases exec_st_cases h with (hst | hst) | ⟨m1, m2, m3, hi, -⟩ | ⟨_, _, _, -, -, rfl⟩
    · simp [hst, hs] at ht
    · simp [hst] at ht
    · exact ⟨m1, m2, m3, hi⟩
    · cases ht
  · rintro ⟨m1, m2, m3, rfl⟩
    cases h
    rfl

theorem exec_blocked_iff {i : Instr} {s t : State} (hs : s.st = .running) (h : exec i s = .next t) :
    t.st = .blocked ↔ s.iq = [] ∧ ∃ a m2 m3, i = .inp a m2 m3 ∧ firstFault (.inp a m2 m3) s = none := by
  constructor
  · intro ht
    rcases exec_st_cases h with (hst | hst) | ⟨_, _, _, -, hst⟩ | ⟨a, m2, m3, rfl, hq, -⟩
    · simp [hst, hs] at ht
    · simp [hst] at ht
    · simp [hst] at ht
    · have hno : ¬ firstFault (.inp a m2 m3) s ≠ none := by rw [← exec_faulted_iff hs h, ht]; decide
      exact ⟨hq, a, m2, m3, rfl, not_not.mp hno⟩
  · rintro ⟨hq, a, m2, m3, rfl, hno⟩
    cases (inputBlocks s a m2 m3 hno hq).symm.trans h
    rfl

/-- Settles O34: a decode fault is no HALT and no IN, and an executed instruction's status is that of its kind. -/
theorem statusTransitions : Obligations.StatusTransitions := by
  refine fun s t h => ⟨fun hs => by rw [step_not_running hs h], fun hs => ?_⟩
  rcases step_running_cases hs h with ⟨e, hf, rfl⟩ | ⟨i, hf, hx⟩
  · simp [hf]
  · simp only [hf, Except.ok.injEq, reduceCtorEq, exists_false, false_or, exists_eq_left']
    exact ⟨exec_halted_iff hs hx, exec_blocked_iff hs hx, exec_faulted_iff hs hx⟩

/-! ## Faults that a parameter rules out -/

/-- The kinds of fault that `OVERFLOW_POLICY` and `MEM_CAPACITY` let happen (R90, R91). -/
def AllowedByParams (s : State) (k : FaultKind) : Prop :=
  (k = .arithmeticOverflow → s.params.overflowPolicy = .fault) ∧
  (k = .memoryCapacityExceeded → s.params.memCapacity < 2 ^ 63)

/-- Every fault that `fault` may be is one the parameters let happen. -/
def FaultAllowed (s : State) (fault : Option FaultKind) : Prop := ∀ k, fault = some k → AllowedByParams s k

theorem FaultAllowed.none (s : State) : FaultAllowed s none := by
  intro k h
  cases h

theorem FaultAllowed.or {s : State} {x y : Option FaultKind} (hx : FaultAllowed s x) (hy : FaultAllowed s y) :
    FaultAllowed s (x.or y) := by
  intro k h
  rcases Option.or_eq_some_iff.mp h with h | ⟨-, h⟩
  · exact hx k h
  · exact hy k h

theorem isWord_policyValue (x : Int) : IsWord (policyValue x) := by
  rw [← toInt_wrap64_eq_policyValue]
  exact isWord_toInt _

theorem isWord_address (s : State) (p : Param) : IsWord (address s p) := by
  rcases hm : p.mode with _ | _ | _ <;> simp only [address, hm]
  · exact isWord_toInt _
  · exact isWord_toInt _
  · exact isWord_policyValue _

theorem overflowFault_allowed (s : State) (x : Int) : FaultAllowed s (overflowFault s x) := by
  intro k h
  obtain ⟨ho, rfl⟩ : overflows s x = true ∧ FaultKind.arithmeticOverflow = k := by simpa [overflowFault] using h
  exact ⟨fun _ => (overflows_eq_true.mp ho).2, nofun⟩

/-- An address is below `2^63`, so it is not below `MEM_CAPACITY` only where that is too (R91). -/
theorem operandFault_allowed (s : State) (write : Bool) (p : Param) : FaultAllowed s (operandFault s write p) := by
  intro k h
  obtain ⟨-, haddr⟩ := isWord_address s p
  unfold operandFault at h
  split at h
  · split at h <;> cases h
    exact ⟨nofun, nofun⟩
  · split at h
    · next ho =>
      cases h
      exact ⟨fun _ => (overflows_eq_true.mp ho.2).2, nofun⟩
    · split at h
      · cases h
        exact ⟨nofun, nofun⟩
      · split at h <;> cases h
        next hcap =>
        exact ⟨nofun, fun _ => by omega⟩

theorem binaryFault_allowed (s : State) (a b c : Param) : FaultAllowed s (binaryFault s a b c) :=
  (operandFault_allowed s false a).or ((operandFault_allowed s false b).or (operandFault_allowed s true c))

theorem jumpFault_allowed (s : State) (taken : Bool) (a b : Param) : FaultAllowed s (jumpFault s taken a b) := by
  refine (operandFault_allowed s false a).or ((operandFault_allowed s false b).or fun k h => ?_)
  split at h <;> cases h
  exact ⟨nofun, nofun⟩

theorem firstFault_allowed (i : Instr) (s : State) : FaultAllowed s (firstFault i s) := by
  cases i with
  | add a b c | mul a b c => exact (binaryFault_allowed s a b c).or (overflowFault_allowed s _)
  | lt a b c | eq a b c => exact binaryFault_allowed s a b c
  | inp a m2 m3 | out a m2 m3 => exact operandFault_allowed s _ a
  | arb a m2 m3 => exact (operandFault_allowed s false a).or (overflowFault_allowed s _)
  | jnz a b m3 | jz a b m3 => exact jumpFault_allowed s _ a b
  | halt m1 m2 m3 => exact FaultAllowed.none s

/-- Settles O26: the decoder raises neither kind, and a first fault of either kind says which parameter let it happen. -/
theorem policyFaultsOnlyUnderTheirPolicy : Obligations.PolicyFaultsOnlyUnderTheirPolicy := by
  intro s t hs h r hr ht
  rcases step_running_cases hs h with ⟨e, -, rfl⟩ | ⟨i, -, hx⟩
  · cases hr
    cases e <;> exact ⟨nofun, nofun⟩
  · obtain ⟨k, hk⟩ := Option.ne_none_iff_exists'.mp ((exec_faulted_iff hs hx).mp ht)
    obtain ⟨t', ht', -, hfr⟩ := exec_of_fault hk
    cases ht'.symm.trans hx
    cases hfr.symm.trans hr
    exact firstFault_allowed i s k hk

end Sys2Proof.Machine

/-! The invariant of every reachable state: LOAD establishes it, each effect of an instruction keeps it, so steps and host
commands do; and O40, O41, O42, O43 from it. -/

namespace Sys2Proof.Machine

open Sys2Proof.Safety

/-! ## LOAD -/

theorem loaded_memRead (params : Params) (P : List Word) (a : Nat) : memRead (loaded params P) a = P.getD a 0 := by
  have hread := Memory.read_ofWords P 0 a
  rw [if_pos (Nat.zero_le a), Nat.sub_zero] at hread
  by_cases ha : a < P.length
  · exact (if_pos ha).trans hread
  · rw [List.getD_eq_default _ _ (by omega)]
    exact if_neg ha

theorem loaded_invariant {params : Params} {P : List Word} (hv : params.Valid) (hlen : P.length ≤ params.memCapacity) :
    Invariant (loaded params P) where
  params := hv
  mem := Memory.wf_ofWords P
  tape := fun c hc => (Memory.mem_ofWords P 0 c hc).trans_eq (Nat.zero_add _)
  len := hlen
  ip := Nat.zero_le _
  fault := by simp [loaded]
  record := fun r hr => by cases hr
  blocked := fun h => by cases h

theorem reset_eq_loaded : State.reset = loaded Params.reference [] := rfl

theorem load_nil (params : Params) : load params [] = some (loaded params []) :=
  load_eq_some.mpr ⟨Nat.zero_le _, rfl⟩

/-- Settles O40: reset is LOAD of the empty program. -/
theorem resetValues : Obligations.ResetValues := by
  refine ⟨rfl, rfl, fun a => ?_, rfl, rfl, rfl, rfl, rfl, rfl, load_nil _⟩
  rw [reset_eq_loaded, loaded_memRead, List.getD_nil]

/-- Settles O41: reset is LOAD of the empty program. -/
theorem invariantAtReset : Obligations.InvariantAtReset :=
  loaded_invariant (params := Params.reference) (P := []) (by decide) (Nat.zero_le _)

/-! ## The tape -/

/-- The clauses of the invariant about the parameters and the tape. -/
structure TapeInvariant (s : State) : Prop where
  params : s.params.Valid
  mem    : s.mem.wf = true
  tape   : TapeBounded s
  len    : s.len ≤ s.params.memCapacity

theorem TapeInvariant.of_invariant {s : State} (h : Invariant s) : TapeInvariant s := ⟨h.params, h.mem, h.tape, h.len⟩

theorem TapeInvariant.of_extended {s t : State} (h : TapeInvariant s) (he : TapeExtended s t) : TapeInvariant t where
  params := by rw [he.params]; exact h.params
  mem := he.wf h.mem
  tape := he.bound h.tape
  len := by rw [he.params]; exact he.cap h.len

theorem TapeInvariant.memWrite {s : State} {d : Nat} (h : TapeInvariant s) (hd : d < s.params.memCapacity) (v : Word) :
    TapeInvariant (memWrite d v s) where
  params := by rw [memWrite_params]; exact h.params
  mem := memWrite_wf d v s h.mem
  tape := memWrite_bounded d v s h.tape
  len := by rw [memWrite_params, memWrite_len]; exact max_le h.len hd

/-- The clauses read nothing but the parameters, the memory and the tape length. -/
theorem TapeInvariant.congr {s t : State} (h : TapeInvariant s) (hp : t.params = s.params) (hm : t.mem = s.mem)
    (hl : t.len = s.len) : TapeInvariant t where
  params := by rw [hp]; exact h.params
  mem := by rw [hm]; exact h.mem
  tape := by rw [TapeBounded, hm, hl]; exact h.tape
  len := by rw [hp, hl]; exact h.len

theorem TapeInvariant.of_effect {i : Instr} {s t : State} (h : TapeInvariant s) (heff : Effect s i t) :
    TapeInvariant t := by
  cases heff with
  | fault hf =>
    obtain ⟨c, s', he, rfl⟩ := hf
    exact (h.of_extended he).congr rfl rfl rfl
  | @store _ c d r s' hi hd he =>
    have hd' : d < s'.params.memCapacity := by rw [he.params]; exact (writeAddr_ok hd).1
    exact ((h.of_extended he).memWrite hd' r).congr rfl rfl rfl
  | @input a m2 m3 d v rest hd hq =>
    have hs : TapeInvariant { s with iq := rest } := h.congr rfl rfl rfl
    exact (hs.memWrite (writeAddr_ok hd).1 v).congr rfl rfl rfl
  | block | halt => exact h.congr rfl rfl rfl
  | output he | jump _ _ he | skip _ he | adjust he => exact (h.of_extended he).congr rfl rfl rfl

/-! ## The instruction pointer -/

/-- Where an instruction leaves `IP`: at most four words on, or at a jump target, which is not negative (R61, R81). -/
theorem Effect.ip_cases {i : Instr} {s t : State} (h : Effect s i t) :
    (∃ n ≤ 4, t.ip = s.ip + BitVec.ofNat 64 n) ∨ 0 ≤ t.ip.toInt := by
  cases h with
  | fault hf =>
    obtain ⟨c, s', he, rfl⟩ := hf
    exact .inl ⟨0, by decide, by simp [he.ip]⟩
  | store hi hd he => exact .inl ⟨4, by decide, by simp [he.ip]⟩
  | input hd hq => exact .inl ⟨2, by decide, by simp⟩
  | block hd hq => exact .inl ⟨0, by decide, by simp⟩
  | output he | adjust he => exact .inl ⟨2, by decide, by simp [he.ip]⟩
  | jump hi ht he => exact .inr ht
  | skip hi he => exact .inl ⟨3, by decide, by simp [he.ip]⟩
  | halt => exact .inl ⟨1, by decide, by simp⟩

/-- An instruction stands below the tape length, so `IP` stays in the range of R63. -/
theorem Effect.ip_bounded {i : Instr} {s t : State} (h : Effect s i t) (hip : s.ip.toNat < 2 ^ 63) :
    t.ip.toNat ≤ 2 ^ 63 + 3 := by
  rcases h.ip_cases with ⟨n, hn, heq⟩ | hnonneg
  · have hadd : t.ip.toNat ≤ s.ip.toNat + (BitVec.ofNat 64 n).toNat := by
      rw [heq, BitVec.toNat_add]
      exact Nat.mod_le _ _
    have hof : (BitVec.ofNat 64 n).toNat ≤ n := by
      rw [BitVec.toNat_ofNat]
      exact Nat.mod_le _ _
    omega
  · have := toNat_of_nonneg hnonneg
    obtain ⟨-, hlt⟩ := isWord_toInt t.ip
    omega

/-! ## The fault record -/

/-- The record fault entry writes has the shape of R18. -/
theorem recordShape_of_cause (c : FaultCause) (ip : Pointer) :
    RecordShape { kind := c.kind, ip := ip, value := c.value } := by
  cases c <;> simp [RecordShape, FaultCause.kind, FaultCause.value]

/-- The clauses of the invariant about the status and the fault record. -/
structure FaultInvariant (s : State) : Prop where
  fault  : s.fr.isSome = true ↔ s.st = .faulted
  record : ∀ r, s.fr = some r → RecordShape r

theorem faultInvariant_takeFault (c : FaultCause) (s : State) : FaultInvariant (takeFault c s) where
  fault := by simp
  record := fun r hr => by cases hr; exact recordShape_of_cause c s.ip

theorem faultInvariant_of_none {s : State} (hfr : s.fr = none) (hst : s.st ≠ .faulted) : FaultInvariant s where
  fault := by simp [hfr, hst]
  record := fun r hr => by cases hfr.symm.trans hr

theorem FaultInvariant.of_effect {i : Instr} {s t : State} (hs : s.st = .running) (hfr : s.fr = none)
    (h : Effect s i t) : FaultInvariant t := by
  cases h with
  | fault hf =>
    obtain ⟨c, s', -, rfl⟩ := hf
    exact faultInvariant_takeFault c s'
  | store _ _ he | output he | jump _ _ he | skip _ he | adjust he =>
    exact faultInvariant_of_none (by simp [he.fr, hfr]) (by simp [he.st, hs])
  | input | block | halt => exact faultInvariant_of_none (by simp [hfr]) (by simp [hs])

/-! ## Steps -/

theorem invariant_fr_eq_none {s : State} (h : Invariant s) (hst : s.st ≠ .faulted) : s.fr = none := by
  rw [← Option.not_isSome_iff_eq_none]
  exact h.fault.not.mpr hst

/-- The invariant from its parts. -/
theorem invariant_of_parts {s : State} (htape : TapeInvariant s) (hip : s.ip.toNat ≤ 2 ^ 63 + 3)
    (hfault : FaultInvariant s) (hblocked : s.st = .blocked → ∃ a m2 m3, fetch s = .ok (.inp a m2 m3)) : Invariant s :=
  { htape, hfault with ip := hip, blocked := hblocked }

/-- Settles O42: the tape clauses are kept by every effect, an instruction stands below the tape length, fault entry
writes the record, and the step that blocks leaves its IN in place. -/
theorem stepKeepsInvariant : Obligations.StepKeepsInvariant := by
  intro s t hinv h
  by_cases hs : s.st = .running
  case neg => rwa [step_not_running hs h]
  have htape := TapeInvariant.of_invariant hinv
  have hfr : s.fr = none := invariant_fr_eq_none hinv (by simp [hs])
  rcases step_running_cases hs h with ⟨e, -, rfl⟩ | ⟨i, hf, hx⟩
  · exact invariant_of_parts (htape.congr rfl rfl rfl) hinv.ip (faultInvariant_takeFault _ s) (fun ht => by cases ht)
  · have heff := exec_effect hx
    have hip : s.ip.toNat < 2 ^ 63 :=
      calc
        s.ip.toNat < s.len := ip_lt_len_of_fetch_ok hf
        _ ≤ s.params.memCapacity := htape.len
        _ ≤ 2 ^ 63 := htape.params.2
    exact invariant_of_parts (htape.of_effect heff) (heff.ip_bounded hip) (.of_effect hs hfr heff)
      (fun ht => fetch_of_step_blocked hs h ht)

/-! ## Host commands -/

theorem invariant_resume {s : State} (h : Invariant s) (hst : s.st = .blocked) : Invariant (resume s) := by
  have hfr : s.fr = none := invariant_fr_eq_none h (by simp [hst])
  exact invariant_of_parts ((TapeInvariant.of_invariant h).congr rfl rfl rfl) h.ip
    (faultInvariant_of_none hfr (by simp)) (fun hr => by cases hr)

/-- No clause reads the queues. -/
theorem invariant_with_queues {s : State} (h : Invariant s) (iq ob : List Word) :
    Invariant { s with iq := iq, ob := ob } :=
  { params := h.params, mem := h.mem, tape := h.tape, len := h.len, ip := h.ip, fault := h.fault, record := h.record
    blocked := h.blocked }

theorem load_invariant {params : Params} {P : List Word} {t : State} (hv : params.Valid) (h : load params P = some t) :
    Invariant t := by
  obtain ⟨hlen, rfl⟩ := load_eq_some.mp h
  exact loaded_invariant hv hlen

/-- Settles O43: a RUN is resuming and steps, a LOAD starts from parameters in range, the other commands reach only the
queues. -/
theorem hostCommandsKeepInvariant : Obligations.HostCommandsKeepInvariant := by
  refine ⟨fun fuel c s t r hinv h => ?_, fun params P t hv h => load_invariant hv h⟩
  by_cases hrun : c = .run
  · subst hrun
    obtain ⟨r', hr⟩ := hostCommand_run_eq_some h
    exact run_rel (R := fun s t => Invariant s → Invariant t) (fun _ => id) (fun h k hinv => k (h hinv))
      (fun h hinv => stepKeepsInvariant _ _ hinv h) (fun _ hs hinv => invariant_resume hinv hs) hr hinv
  by_cases hload : ∃ params P, c = .load params P
  · obtain ⟨params, P, rfl⟩ := hload
    rcases hostCommand_load_eq_some h with hl | rfl
    · exact load_invariant hinv.params hl
    · exact hinv
  · rw [hostCommand_changes_only_queues hrun (fun params P hc => hload ⟨params, P, hc⟩) h]
    exact invariant_with_queues hinv _ _

end Sys2Proof.Machine

/-! Two runs of one instruction. A relation between states that instructions cannot tell apart, and that every operation
keeps, is kept by every step; and O38, O39, O59 from it, each with its relation. -/

namespace Sys2Proof.Machine

open Sys2Proof.Safety

/-! ## Simulations -/

/-- Related states agree in all that an instruction reads but the end of `IQ`, and the operations keep them related. -/
structure Simulation (R : State → State → Prop) : Prop where
  ip             : ∀ {s u}, R s u → u.ip = s.ip
  rb             : ∀ {s u}, R s u → u.rb = s.rb
  st             : ∀ {s u}, R s u → u.st = s.st
  memCapacity    : ∀ {s u}, R s u → u.params.memCapacity = s.params.memCapacity
  overflowPolicy : ∀ {s u}, R s u → u.params.overflowPolicy = s.params.overflowPolicy
  read           : ∀ {s u}, R s u → ∀ a, memRead u a = memRead s a
  extendOnRead   : ∀ {s u}, R s u → ∀ a, R (extendOnRead a s) (extendOnRead a u)
  memWrite       : ∀ {s u}, R s u → ∀ d v, R (memWrite d v s) (memWrite d v u)
  setIp          : ∀ {s u}, R s u → ∀ ip, R { s with ip := ip } { u with ip := ip }
  setRb          : ∀ {s u}, R s u → ∀ rb, R { s with rb := rb } { u with rb := rb }
  setSt          : ∀ {s u}, R s u → ∀ st, R { s with st := st } { u with st := st }
  setFr          : ∀ {s u}, R s u → ∀ fr, R { s with fr := fr } { u with fr := fr }
  takeInput      : ∀ {s u}, R s u → ∀ {v rest}, s.iq = v :: rest →
    ∃ rest', u.iq = v :: rest' ∧ R { s with iq := rest } { u with iq := rest' }
  appendOutput   : ∀ {s u}, R s u → ∀ x, R { s with ob := s.ob ++ [x] } { u with ob := u.ob ++ [x] }

/-- Two answers are next states that `R` relates. -/
def NextRel (R : State → State → Prop) (r q : Result) : Prop := ∃ s u, r = .next s ∧ q = .next u ∧ R s u

theorem NextRel.next {R : State → State → Prop} {s u : State} (h : R s u) : NextRel R (.next s) (.next u) :=
  ⟨s, u, rfl, rfl, h⟩

section
variable {R : State → State → Prop} {s u : State}

theorem Simulation.takeFault (S : Simulation R) (h : R s u) (c : FaultCause) : R (takeFault c s) (takeFault c u) := by
  have hu : Machine.takeFault c u =
      { u with fr := some { kind := c.kind, ip := s.ip, value := c.value }, st := .faulted } := by
    simp only [Machine.takeFault, S.ip h]
  rw [hu]
  exact S.setSt (S.setFr h (some { kind := c.kind, ip := s.ip, value := c.value })) .faulted

theorem Simulation.advance (S : Simulation R) (h : R s u) (n : Nat) : R (advance n s) (advance n u) := by
  unfold Machine.advance
  rw [S.ip h]
  exact S.setIp h _

theorem Simulation.fit (S : Simulation R) (h : R s u) (x : Int) : fit u.params x = fit s.params x := by
  rw [fit_eq, fit_eq, S.overflowPolicy h]

theorem Simulation.effRel (S : Simulation R) (h : R s u) (raw : Word) : effRel raw u = effRel raw s := by
  rw [Machine.effRel, Machine.effRel, S.rb h, S.fit h]

theorem Simulation.writeAddr (S : Simulation R) (h : R s u) (p : Param) : writeAddr p u = writeAddr p s := by
  simp only [Machine.writeAddr, checkWrite, S.effRel h, S.memCapacity h]

theorem Simulation.fetch (S : Simulation R) (h : R s u) : fetch u = fetch s := by
  have hword : fetchWord u = fetchWord s := by
    funext k
    rw [fetchWord, fetchWord, S.ip h, S.read h]
  rw [Machine.fetch, Machine.fetch, hword]

theorem Simulation.readAt_andThen (S : Simulation R) (h : R s u) (a : Word) {k k' : Word → State → Result}
    (hk : ∀ v s' u', R s' u' → NextRel R (k v s') (k' v u')) :
    NextRel R ((readAt a s).andThen k) ((readAt a u).andThen k') := by
  unfold readAt
  split
  · exact .next (S.takeFault h _)
  · rw [S.read h]
    exact hk _ _ _ (S.extendOnRead h _)

/-- A read operand gives related states the same word or the same fault. -/
theorem Simulation.andThen (S : Simulation R) (h : R s u) (p : Param) {k k' : Word → State → Result}
    (hk : ∀ v s' u', R s' u' → NextRel R (k v s') (k' v u')) :
    NextRel R ((readOperand p s).andThen k) ((readOperand p u).andThen k') := by
  unfold readOperand
  rcases p.mode with _ | _ | _
  · exact S.readAt_andThen h p.raw hk
  · exact hk _ _ _ h
  · simp only [S.effRel h]
    rcases Machine.effRel p.raw s with c | a
    · exact .next (S.takeFault h c)
    · exact S.readAt_andThen h a hk

theorem Simulation.orFault (S : Simulation R) (h : R s u) {α : Type} {e e' : Except FaultCause α} (he : e' = e)
    {k k' : α → Result} (hk : ∀ v, NextRel R (k v) (k' v)) : NextRel R (orFault e s k) (orFault e' u k') := by
  subst he
  rcases e' with c | v
  · exact .next (S.takeFault h c)
  · exact hk v

theorem Simulation.execBinary (S : Simulation R) (h : R s u) {f : Params → Word → Word → Except FaultCause Word}
    (hf : ∀ x y, f u.params x y = f s.params x y) (a b c : Param) :
    NextRel R (execBinary f a b c s) (execBinary f a b c u) :=
  S.andThen h a fun x _ _ h1 => S.andThen h1 b fun y _ _ h2 =>
    S.orFault h2 (S.writeAddr h c) fun d => S.orFault h2 (hf x y) fun r => .next (S.advance (S.memWrite h2 d r) 4)

theorem Simulation.execJump (S : Simulation R) (h : R s u) (taken : Word → Bool) (a b : Param) :
    NextRel R (execJump taken a b s) (execJump taken a b u) := by
  refine S.andThen h a fun x _ _ h1 => S.andThen h1 b fun y _ _ h2 => ?_
  by_cases hx : taken x = true
  · rw [if_pos hx, if_pos hx]
    unfold jumpTo
    split
    · exact .next (S.takeFault h2 _)
    · exact .next (S.setIp h2 y)
  · rw [if_neg hx, if_neg hx]
    exact .next (S.advance h2 3)

theorem Simulation.execArb (S : Simulation R) (h : R s u) (a : Param) : NextRel R (execArb a s) (execArb a u) := by
  refine S.andThen h a fun x s1 u1 h1 => S.orFault h1 ?_ fun r => .next (S.advance (S.setRb h1 r) 2)
  rw [add64, add64, S.rb h1, S.fit h1]

theorem Simulation.execOut (S : Simulation R) (h : R s u) (a : Param) : NextRel R (execOut a s) (execOut a u) :=
  S.andThen h a fun x _ _ h1 => .next (S.advance (S.appendOutput h1 x) 2)

/-- IN, where an empty `IQ` that blocks the first run is empty in the second. -/
theorem Simulation.execIn (S : Simulation R) (h : R s u) (a : Param)
    (hempty : s.iq = [] → operandFault s true a = none → u.iq = []) : NextRel R (execIn a s) (execIn a u) := by
  unfold Machine.execIn
  rw [S.writeAddr h]
  rcases hff : operandFault s true a with _ | k
  · obtain ⟨hd, -, -⟩ := writeAddr_of_no_fault hff
    rw [hd]
    rcases hq : s.iq with _ | ⟨v, rest⟩
    · simp only [Machine.orFault, hempty hq hff]
      exact .next (S.setSt h _)
    · obtain ⟨rest', hq', h'⟩ := S.takeInput h hq
      simp only [Machine.orFault, hq']
      exact .next (S.advance (S.memWrite h' _ v) 2)
  · obtain ⟨c, -, -, hd⟩ := writeAddr_of_fault hff
    rw [hd]
    exact .next (S.takeFault h c)

theorem Simulation.exec (S : Simulation R) (h : R s u) (i : Instr)
    (hempty : ∀ a m2 m3, i = .inp a m2 m3 → s.iq = [] → operandFault s true a = none → u.iq = []) :
    NextRel R (exec i s) (exec i u) := by
  cases i with
  | add a b c => exact S.execBinary h (f := add64) (fun x y => S.fit h _) a b c
  | mul a b c => exact S.execBinary h (f := mul64) (fun x y => S.fit h _) a b c
  | lt a b c => exact S.execBinary h (f := lessThan64) (fun x y => rfl) a b c
  | eq a b c => exact S.execBinary h (f := equal64) (fun x y => rfl) a b c
  | inp a m2 m3 => exact S.execIn h a (hempty a m2 m3 rfl)
  | out a m2 m3 => exact S.execOut h a
  | jnz a b m3 | jz a b m3 => exact S.execJump h _ a b
  | arb a m2 m3 => exact S.execArb h a
  | halt m1 m2 m3 => exact .next (S.advance (S.setSt h _) 1)

theorem Simulation.step (S : Simulation R) (h : R s u)
    (hempty : ∀ a m2 m3, s.st = .running → Machine.fetch s = .ok (.inp a m2 m3) → s.iq = [] →
      operandFault s true a = none → u.iq = []) : NextRel R (Machine.step s) (Machine.step u) := by
  by_cases hs : s.st = .running
  · have hu := (S.st h).trans hs
    rcases hf : Machine.fetch s with e | i
    · rw [step_of_fetch_error hs hf, step_of_fetch_error hu ((S.fetch h).trans hf)]
      exact .next (S.takeFault h _)
    · rw [step_of_fetch_ok hs hf, step_of_fetch_ok hu ((S.fetch h).trans hf)]
      exact S.exec h i fun a m2 m3 hi => hempty a m2 m3 hs (hi ▸ hf)
  · have hu : u.st ≠ .running := by rwa [S.st h]
    rw [stepOnlyWhileRunning s hs, stepOnlyWhileRunning u hu]
    exact .next h

end

/-! ## More input, other output -/

/-- The state with other words in its queues. -/
def mapQueues (f g : List Word → List Word) (s : State) : State := { s with iq := f s.iq, ob := g s.ob }

theorem extendTape_mapQueues (f g : List Word → List Word) (a : Nat) (s : State) :
    extendTape a (mapQueues f g s) = mapQueues f g (extendTape a s) := by
  by_cases h : s.len ≤ a <;> simp [extendTape, mapQueues, h]

theorem extendOnRead_mapQueues (f g : List Word → List Word) (a : Nat) (s : State) :
    extendOnRead a (mapQueues f g s) = mapQueues f g (extendOnRead a s) := by
  by_cases h : s.params.readExtends = true ∧ a < s.params.memCapacity
  · calc
      extendOnRead a (mapQueues f g s) = extendTape a (mapQueues f g s) := if_pos h
      _ = mapQueues f g (extendTape a s) := extendTape_mapQueues f g a s
      _ = mapQueues f g (extendOnRead a s) := by rw [extendOnRead, if_pos h]
  · calc
      extendOnRead a (mapQueues f g s) = mapQueues f g s := if_neg h
      _ = mapQueues f g (extendOnRead a s) := by rw [extendOnRead, if_neg h]

theorem memWrite_mapQueues (f g : List Word → List Word) (d : Nat) (v : Word) (s : State) :
    memWrite d v (mapQueues f g s) = mapQueues f g (memWrite d v s) := by
  rw [memWrite, extendTape_mapQueues]
  rfl

/-- Instructions cannot tell apart queues that keep their front word and take an appended one alike. -/
theorem mapQueues_simulation {f g : List Word → List Word} (hf : ∀ v rest, f (v :: rest) = v :: f rest)
    (hg : ∀ ob x, g (ob ++ [x]) = g ob ++ [x]) : Simulation fun s u => u = mapQueues f g s where
  ip := by rintro s _ rfl; rfl
  rb := by rintro s _ rfl; rfl
  st := by rintro s _ rfl; rfl
  memCapacity := by rintro s _ rfl; rfl
  overflowPolicy := by rintro s _ rfl; rfl
  read := by rintro s _ rfl a; rfl
  extendOnRead := by rintro s _ rfl a; exact extendOnRead_mapQueues f g a s
  memWrite := by rintro s _ rfl d v; exact memWrite_mapQueues f g d v s
  setIp := by rintro s _ rfl ip; rfl
  setRb := by rintro s _ rfl rb; rfl
  setSt := by rintro s _ rfl st; rfl
  setFr := by rintro s _ rfl fr; rfl
  takeInput := by
    rintro s _ rfl v rest hq
    exact ⟨f rest, by rw [mapQueues, hq, hf], rfl⟩
  appendOutput := by
    rintro s _ rfl x
    simp only [mapQueues, hg]

/-- Settles O38: words before those of `OB` stay before the word an OUT appends, and nothing reads them. -/
theorem outputBufferUnread : Obligations.OutputBufferUnread := by
  intro i s t o h
  have S := mapQueues_simulation (f := id) (g := (o ++ ·)) (fun _ _ => rfl)
    (fun ob x => (List.append_assoc o ob [x]).symm)
  obtain ⟨t', u', ht, hu, rfl⟩ := S.exec (s := s) rfl i fun _ _ _ _ hq _ => hq
  cases ht.symm.trans h
  exact hu

/-- Words appended to `IQ` change no step but one that blocks. -/
theorem step_addInputs {s t : State} (ws : List Word) (h : step s = .next t) (ht : t.st ≠ .blocked) :
    step (addInputs ws s) = .next (addInputs ws t) := by
  have S := mapQueues_simulation (f := (· ++ ws)) (g := id) (fun _ _ => rfl) (fun _ _ => rfl)
  obtain ⟨t', u', ht', hu, rfl⟩ := S.step (s := s) rfl fun a m2 m3 hs hf hq hno => by
    have hx : exec (.inp a m2 m3) s = .next t := (step_of_fetch_ok hs hf).symm.trans h
    exact absurd ((exec_blocked_iff hs hx).mpr ⟨hq, a, m2, m3, rfl, hno⟩) ht
  cases ht'.symm.trans h
  exact hu

/-- Settles O59: the step with the appended words leaves the same state, with these words at the back of `IQ`. -/
theorem laterInputChangesNoStep : Obligations.LaterInputChangesNoStep := fun _ _ ws h ht =>
  ⟨_, step_addInputs ws h ht, rfl, rfl, fun _ => rfl⟩

/-! ## READ_EXTENDS -/

/-- `t` is `u` with a tape that reads may have lengthened, where they lengthen none in `u`. -/
structure LongerTape (t u : State) : Prop where
  same   : { t with len := u.len, params := u.params } = u
  params : { t.params with readExtends := u.params.readExtends } = u.params
  fixed  : u.params.readExtends = false
  len    : u.len ≤ t.len
  bound  : TapeBounded u

theorem Memory.read_of_bounded {m : Memory} {a : Nat} (h : ∀ c ∈ m, c.1 < a) : m.read a = 0 := by
  induction m with
  | nil => rfl
  | cons c m ih =>
    obtain ⟨b, w⟩ := c
    have hb : b < a := h (b, w) (List.mem_cons_self)
    rw [Memory.read, if_neg (by omega)]
    exact ih fun c hc => h c (List.mem_cons_of_mem _ hc)

/-- Beyond the tape the array holds 0 too, so the length does not show in a read (R24). -/
theorem memRead_of_bounded {s : State} (h : TapeBounded s) (a : Nat) : memRead s a = s.mem.read a := by
  unfold memRead
  split
  · rfl
  · exact (Memory.read_of_bounded fun c hc => (h c hc).trans_le (by omega)).symm

theorem extendTape_of_bounded {s : State} (h : TapeBounded s) (a : Nat) :
    extendTape a s = { s with len := max s.len (a + 1) } := by
  unfold extendTape
  split
  · next hle =>
    have hfill : s.mem.zeroFill s.len (a + 1) = s.mem := by
      refine List.filter_eq_self.mpr fun c hc => ?_
      have := h c hc
      simp only [Bool.not_eq_true', Bool.and_eq_false_iff, decide_eq_false_iff_not]
      omega
    rw [hfill, max_eq_right (by omega)]
  · next hle => rw [max_eq_left (by omega)]

theorem memWrite_of_bounded {s : State} (h : TapeBounded s) (d : Nat) (v : Word) :
    memWrite d v s = { s with mem := s.mem.write d v, len := max s.len (d + 1) } := by
  rw [memWrite, extendTape_of_bounded h]

section
variable {t u : State}

theorem LongerTape.mem (h : LongerTape t u) : u.mem = t.mem := (congrArg State.mem h.same).symm

theorem LongerTape.fr (h : LongerTape t u) : u.fr = t.fr := (congrArg State.fr h.same).symm

theorem LongerTape.bound_longer (h : LongerTape t u) : TapeBounded t := fun c hc =>
  (h.bound c (h.mem ▸ hc)).trans_le h.len

theorem LongerTape.extendOnRead (h : LongerTape t u) (a : Nat) : LongerTape (extendOnRead a t) (extendOnRead a u) := by
  have hu : Machine.extendOnRead a u = u := by simp [Machine.extendOnRead, h.fixed]
  rw [hu]
  unfold Machine.extendOnRead
  split
  · rw [extendTape_of_bounded h.bound_longer]
    exact ⟨h.same, h.params, h.fixed, h.len.trans (le_max_left _ _), h.bound⟩
  · exact h

theorem LongerTape.memWrite (h : LongerTape t u) (d : Nat) (v : Word) :
    LongerTape (memWrite d v t) (memWrite d v u) := by
  have hb := memWrite_bounded d v u h.bound
  rw [memWrite_of_bounded h.bound, ← h.same] at hb ⊢
  rw [memWrite_of_bounded h.bound_longer]
  exact ⟨rfl, h.params, h.fixed, max_le_max_right _ h.len, hb⟩

end

/-- No instruction reads the tape length, so it may differ (R24, R30). -/
theorem longerTape_simulation : Simulation LongerTape where
  ip h := (congrArg State.ip h.same).symm
  rb h := (congrArg State.rb h.same).symm
  st h := (congrArg State.st h.same).symm
  memCapacity h := (congrArg Params.memCapacity h.params).symm
  overflowPolicy h := (congrArg Params.overflowPolicy h.params).symm
  read h a := by rw [memRead_of_bounded h.bound, memRead_of_bounded h.bound_longer, h.mem]
  extendOnRead := LongerTape.extendOnRead
  memWrite := LongerTape.memWrite
  setIp h ip := ⟨congrArg (fun x : State => { x with ip := ip }) h.same, h.params, h.fixed, h.len, h.bound⟩
  setRb h rb := ⟨congrArg (fun x : State => { x with rb := rb }) h.same, h.params, h.fixed, h.len, h.bound⟩
  setSt h st := ⟨congrArg (fun x : State => { x with st := st }) h.same, h.params, h.fixed, h.len, h.bound⟩
  setFr h fr := ⟨congrArg (fun x : State => { x with fr := fr }) h.same, h.params, h.fixed, h.len, h.bound⟩
  takeInput {t u} h {v rest} hq := ⟨rest, (congrArg State.iq h.same).symm.trans hq,
    congrArg (fun x : State => { x with iq := rest }) h.same, h.params, h.fixed, h.len, h.bound⟩
  appendOutput h x :=
    ⟨congrArg (fun y : State => { y with ob := y.ob ++ [x] }) h.same, h.params, h.fixed, h.len, h.bound⟩

/-- Settles O39: the two states are related by the longer tape, and a step keeps them so. -/
theorem readExtensionOnlyChangesLength : Obligations.ReadExtensionOnlyChangesLength := by
  intro s L hinv hlen _ t u ht hu
  have h : LongerTape { s with params := { s.params with readExtends := true }, len := L }
      { s with params := { s.params with readExtends := false } } := ⟨rfl, rfl, rfl, hlen, hinv.tape⟩
  obtain ⟨t', u', ht', hu', h'⟩ := longerTape_simulation.step h fun _ _ _ _ _ hq _ => hq
  cases ht'.symm.trans ht
  cases hu'.symm.trans hu
  exact ⟨(longerTape_simulation.st h').symm, h'.fr.symm, fun _ => ⟨h'.same, h'.len⟩⟩

end Sys2Proof.Machine

/-! RUN (R64 to R70): the equations of the loop, that more fuel changes no result, and O36, O46, O47, O48, O49 from it. -/

namespace Sys2Proof.Machine

open Sys2Proof.Safety

/-! ## The equations of RUN -/

theorem run_running {s : State} (hs : s.st = .running) (fuel : Nat) : run fuel s = runLoop fuel s := by
  simp only [run, hs]

theorem run_blocked {s : State} (hs : s.st = .blocked) (fuel : Nat) : run fuel s = run fuel (resume s) := by
  simp only [run, hs, resume_st]

/-- Settles O46: the arm of RUN for a faulted status. -/
theorem runOnFaultedRepeatsFatal : Obligations.RunOnFaultedRepeatsFatal := by
  intro fuel s hs
  simp only [run, hs]

theorem runLoop_of_end {s u : State} {r : RunResult} (h : step s = .next u) (hr : runResult u = some r) (fuel : Nat) :
    runLoop (fuel + 1) s = some (r, u) := by
  simp only [runLoop, h, hr]

theorem runLoop_of_running {s u : State} (h : step s = .next u) (hu : u.st = .running) (fuel : Nat) :
    runLoop (fuel + 1) s = runLoop fuel u := by
  have hr : runResult u = none := by simp only [runResult, hu]
  simp only [runLoop, h, hr]

/-- Every step answers a next state. -/
theorem step_next (s : State) : ∃ t, step s = .next t := by
  by_cases hs : s.st = .running
  · rcases hf : fetch s with e | i
    · exact ⟨_, step_of_fetch_error hs hf⟩
    · rw [step_of_fetch_ok hs hf]
      rcases hff : firstFault i s with _ | k
      · obtain ⟨t, ht, -⟩ := exec_of_no_fault hff
        exact ⟨t, ht⟩
      · obtain ⟨t, ht, -⟩ := exec_of_fault hff
        exact ⟨t, ht⟩
  · exact ⟨s, stepOnlyWhileRunning s hs⟩

/-! ## How a RUN ends -/

theorem runResult_eq_some {t : State} {r : RunResult} (h : runResult t = some r) :
    (t.st = .halted ∧ r = .ok) ∨ (t.st = .blocked ∧ r = .blockedOnInput t.ip) ∨ (t.st = .faulted ∧ r = .fatal t.fr) := by
  unfold runResult at h
  cases hst : t.st <;> simp only [hst] at h <;> cases h <;> simp

theorem runLoop_more_fuel {fuel more : Nat} {s : State} {x : RunResult × State} (h : runLoop fuel s = some x) :
    runLoop (fuel + more) s = some x := by
  induction fuel generalizing s with
  | zero => cases h
  | succ fuel ih =>
    obtain ⟨u, hu⟩ := step_next s
    rw [Nat.add_right_comm]
    rcases hr : runResult u with _ | r
    · have hrun := runResult_eq_none hr
      rw [runLoop_of_running hu hrun] at h ⊢
      exact ih h
    · rw [runLoop_of_end hu hr] at h ⊢
      exact h

/-- Settles O47: a RUN ends at once or with a step whose next state has a result, and the loop never looks at spare
fuel. -/
theorem runEndsExactly : Obligations.RunEndsExactly := by
  refine ⟨fun s t r h => ?_, fun s fuel more x h => ?_⟩
  · obtain ⟨fuel, hrun⟩ := h
    rcases run_cases hrun with ⟨hs, rfl, rfl⟩ | ⟨hs, rfl, rfl⟩ | ⟨u, -, -, hr⟩
    · exact .inl ⟨hs, rfl⟩
    · exact .inr (.inr ⟨hs, rfl⟩)
    · exact runResult_eq_some hr
  · unfold run at h ⊢
    cases hs : s.st <;> simp only [hs] at h ⊢
    case running | blocked => exact runLoop_more_fuel h
    case halted | faulted => exact h

/-! ## A RUN is its steps -/

theorem runReturns_blocked_iff {s t : State} {r : RunResult} (hs : s.st = .blocked) :
    RunReturns s r t ↔ RunReturns (resume s) r t := by
  simp only [RunReturns, run_blocked hs]

theorem runReturns_running_iff {s u t : State} {r : RunResult} (hs : s.st = .running) (h : step s = .next u) :
    RunReturns s r t ↔ (u.st = .running ∧ RunReturns u r t) ∨ (runResult u = some r ∧ u = t) := by
  simp only [RunReturns, run_running hs]
  rcases hr : runResult u with _ | r'
  · have hu := runResult_eq_none hr
    simp only [hu, run_running hu, true_and, reduceCtorEq, false_and, or_false]
    constructor
    · rintro ⟨_ | fuel, hrun⟩
      · cases hrun
      · exact ⟨fuel, (runLoop_of_running h hu fuel).symm.trans hrun⟩
    · rintro ⟨fuel, hrun⟩
      exact ⟨fuel + 1, (runLoop_of_running h hu fuel).trans hrun⟩
  · have hu : u.st ≠ .running := fun hu => by simp [runResult, hu] at hr
    simp only [hu, false_and, false_or]
    constructor
    · rintro ⟨_ | fuel, hrun⟩
      · cases hrun
      · cases (runLoop_of_end h hr fuel).symm.trans hrun
        exact ⟨rfl, rfl⟩
    · rintro ⟨hr', rfl⟩
      cases hr'
      exact ⟨1, runLoop_of_end h hr 0⟩

/-- Settles O48: resuming, then the loop's equation. -/
theorem runIsItsSteps : Obligations.RunIsItsSteps :=
  ⟨fun _ _ _ hs => runReturns_blocked_iff hs, fun _ _ _ _ hs h => runReturns_running_iff hs h⟩

/-! ## Blocking and resuming -/

theorem resume_block {s : State} (hs : s.st = .running) : resume (block s) = s := by
  rw [resume, block, ← hs]

theorem block_resume {s : State} (hs : s.st = .blocked) : block (resume s) = s := by
  rw [resume, block, ← hs]

/-- A resumed IN with a good write operand and an empty `IQ` blocks at its first step (R67). -/
theorem run_still_empty {s : State} {a : Param} {m2 m3 : Mode} (hs : s.st = .blocked) (hq : s.iq = [])
    (hf : fetch s = .ok (.inp a m2 m3)) (hno : firstFault (.inp a m2 m3) s = none) (fuel : Nat) :
    run (fuel + 1) s = some (.blockedOnInput s.ip, s) := by
  have hexec : exec (.inp a m2 m3) (resume s) = .next (block (resume s)) := inputBlocks (resume s) a m2 m3 hno hq
  have hstep : step (resume s) = .next s := by
    rw [step_of_fetch_ok (resume_st s) ((fetch_congr rfl rfl rfl).trans hf), hexec, block_resume hs]
  have hr : runResult s = some (.blockedOnInput s.ip) := by simp only [runResult, hs]
  rw [run_blocked hs, run_running (resume_st s), runLoop_of_end hstep hr]

/-- Settles O36: the state a blocking RUN leaves is at a faultless IN with an empty `IQ` too. -/
theorem stillEmptyBlocksAgain : Obligations.StillEmptyBlocksAgain := by
  refine ⟨fun s a m2 m3 hs hq hf hno fuel => run_still_empty hs hq hf hno fuel, fun s t p h fuel => ?_⟩
  obtain ⟨ht, rfl, u, hu, hstep⟩ := h.blocked
  obtain ⟨hq, a, m2, m3, hf, hno⟩ := ((statusTransitions u t hstep).2 hu).2.1.mp ht
  obtain ⟨rfl, -, -⟩ := step_blocked hu hstep ht
  exact run_still_empty ht hq ((fetch_congr rfl rfl rfl).trans hf) hno fuel

/-! ## Input that arrives while blocked -/

theorem addInputs_st (ws : List Word) (s : State) : (addInputs ws s).st = s.st := rfl

theorem resume_addInputs (ws : List Word) (s : State) : resume (addInputs ws s) = addInputs ws (resume s) := rfl

/-- From a running state whose loop blocks, the RUNs with more words from the start and from the block are the same. -/
theorem runReturns_addInputs_of_runLoop {fuel : Nat} {s b t : State} {p : Pointer} {r : RunResult} (ws : List Word)
    (hs : s.st = .running) (h : runLoop fuel s = some (.blockedOnInput p, b)) :
    RunReturns (addInputs ws s) r t ↔ RunReturns (addInputs ws b) r t := by
  induction fuel generalizing s with
  | zero => cases h
  | succ fuel ih =>
    obtain ⟨u, hu⟩ := step_next s
    rcases hr : runResult u with _ | r'
    · have hrun := runResult_eq_none hr
      have hstep : step (addInputs ws s) = .next (addInputs ws u) := step_addInputs ws hu (by simp [hrun])
      rw [runLoop_of_running hu hrun] at h
      have hnone : runResult (addInputs ws u) ≠ some r := by simp [runResult, addInputs_st, hrun]
      rw [← ih hrun h, runReturns_running_iff ((addInputs_st ws s).trans hs) hstep]
      simp [addInputs_st, hrun, hnone]
    · rw [runLoop_of_end hu hr] at h
      cases h
      obtain ⟨hb, -⟩ := runResult_eq_blocked hr
      obtain ⟨rfl, -, -⟩ := step_blocked hs hu hb
      rw [runReturns_blocked_iff (addInputs_st ws _ |>.trans hb), resume_addInputs, resume_block hs]

/-- The RUN with the words present from the start is the RUN after the block and the words. -/
theorem runReturns_addInputs {s b t : State} {p : Pointer} {r : RunResult} (ws : List Word)
    (h : RunReturns s (.blockedOnInput p) b) : RunReturns (addInputs ws s) r t ↔ RunReturns (addInputs ws b) r t := by
  obtain ⟨fuel, hrun⟩ := h
  cases hs : s.st with
  | running =>
    rw [run_running hs] at hrun
    exact runReturns_addInputs_of_runLoop ws hs hrun
  | blocked =>
    rw [run_blocked hs, run_running (resume_st s)] at hrun
    rw [runReturns_blocked_iff ((addInputs_st ws s).trans hs), resume_addInputs]
    exact runReturns_addInputs_of_runLoop ws (resume_st s) hrun
  | halted => cases (run_halted hs fuel).symm.trans hrun
  | faulted => cases (runOnFaultedRepeatsFatal fuel s hs).symm.trans hrun

theorem agree_refl (s : State) : Agree s s := ⟨rfl, rfl, fun _ => rfl⟩

/-- Settles O49: the two RUNs return the same result and the same state. -/
theorem resumptionIsIdempotent : Obligations.ResumptionIsIdempotent := fun _ _ _ ws h =>
  ⟨fun _ t hb => ⟨t, (runReturns_addInputs ws h).mpr hb, agree_refl t⟩,
    fun _ t hs => ⟨t, (runReturns_addInputs ws h).mp hs, agree_refl t⟩⟩

end Sys2Proof.Machine

/-! The other host commands (R99 to R104, R107) and the status view (R20): LOAD's two outcomes, at one state and at every
place, and O44, O50, O53, O54, O60 from it. -/

namespace Sys2Proof.Machine

open Sys2Proof.Safety

/-! ## LOAD and DISCARD -/

theorem hostCommand_load_fits {fuel : Nat} {params : Params} {P : List Word} {inst : Option State}
    (h : P.length ≤ (loadParams inst params).memCapacity) :
    hostCommand fuel (.load params P) inst = some (.nothing, some (loaded (loadParams inst params) P)) := by
  simp only [hostCommand, load_eq_some.mpr ⟨h, rfl⟩]

theorem hostCommand_load_refused {fuel : Nat} {params : Params} {P : List Word} {inst : Option State}
    (h : (loadParams inst params).memCapacity < P.length) :
    hostCommand fuel (.load params P) inst = some (.loadRefused, inst) := by
  have hl : load (loadParams inst params) P = none := if_neg (by omega)
  simp only [hostCommand, hl]

/-- Settles O44: LOAD's two outcomes, the words of the fresh tape read back one by one. -/
theorem loadResetsOrIsRefused : Obligations.LoadResetsOrIsRefused := fun _ _ P _ =>
  ⟨fun h => ⟨_, hostCommand_load_fits h, loaded_memRead _ P, Memory.wf_ofWords P, rfl⟩,
    fun h => hostCommand_load_refused h⟩

theorem hostCommand_discard (fuel : Nat) (s : State) : hostCommand fuel .discard (some s) = some (.nothing, none) := rfl

/-- Settles O60: a command at a place writes what LOAD or DISCARD leaves there, and the refused LOAD writes back what was
there. -/
theorem anyNumberOfInstances : Obligations.AnyNumberOfInstances := by
  refine fun fuel k params P insts => ⟨fun h => ?_, fun h => ?_, fun h => ?_⟩
  · refine ⟨_, _, commandAt_eq_some.mpr ⟨_, hostCommand_load_fits h, rfl⟩, load_eq_some.mpr ⟨h, rfl⟩, by simp, ?_⟩
    intro j hj
    simp [hj]
  · refine ⟨_, commandAt_eq_some.mpr ⟨_, hostCommand_load_refused h, rfl⟩, fun j => ?_⟩
    by_cases hj : j = k <;> simp [hj]
  · obtain ⟨s, hs⟩ := Option.isSome_iff_exists.mp h
    refine ⟨_, commandAt_eq_some.mpr ⟨_, by rw [hs]; exact hostCommand_discard fuel s, rfl⟩, by simp, ?_⟩
    intro j hj
    simp [hj]

/-! ## ADD_INPUT and READ_MEMORY -/

theorem hostCommand_addInput (fuel : Nat) (v : Word) (s : State) :
    hostCommand fuel (.addInput v) (some s) = some (.nothing, some (addInput v s)) := rfl

/-- Settles O50: ADD_INPUT's arm, whatever the status. -/
theorem addInputAppends : Obligations.AddInputAppends := hostCommand_addInput

theorem readMemory_getElem {s : State} {a : Nat} (h : a < s.len) : (readMemory s)[a]? = some (memRead s a) := by
  simp [readMemory, memRead, h]

/-- Settles O53: READ_MEMORY lists the array up to the tape length, where a read is the array's word. -/
theorem readMemoryReturnsTape : Obligations.ReadMemoryReturnsTape := fun _ s =>
  ⟨readMemory s, rfl, by simp [readMemory], fun _ ha => readMemory_getElem ha⟩

/-! ## The status view -/

theorem statusView_status (s : State) : (statusView s).status = s.st.code := rfl

theorem statusView_blockedIp {s : State} (h : s.st = .blocked) : (statusView s).blockedIp = some s.ip := by
  simp only [statusView, h]

theorem statusView_fault {s : State} {r : FaultRecord} (h : s.fr = some r) :
    (statusView s).faultKind = r.kind.code ∧ (statusView s).faultIp = r.ip ∧
      (statusView s).faultValue = r.value.getD 0 := by
  simp only [statusView, h, and_self]

theorem statusView_no_fault {s : State} (h : s.fr = none) :
    (statusView s).faultKind = 0 ∧ (statusView s).faultIp = 0 ∧ (statusView s).faultValue = 0 := by
  simp only [statusView, h, and_self]

/-- Settles O54: each field of the view, at each status and at a record or none. -/
theorem statusViewCodes : Obligations.StatusViewCodes := by
  intro s
  refine ⟨?running, ?halted, fun h => ⟨?blocked, statusView_blockedIp h⟩, ?faulted, fun r hr => ?record,
    statusView_no_fault, fun params P hl => ?loaded⟩
  case running | halted | faulted =>
    intro h
    rw [statusView_status, h]
    rfl
  case blocked =>
    rw [statusView_status, h]
    rfl
  case record =>
    obtain ⟨hkind, hip, hvalue⟩ := statusView_fault hr
    rw [hkind]
    refine ⟨?_, ?_, ?_, ?_, ?_, ?_, hip, hvalue⟩
    all_goals
      intro hk
      rw [hk]
      rfl
  case loaded =>
    obtain ⟨-, rfl⟩ := load_eq_some.mp hl
    rfl

end Sys2Proof.Machine

/-! The assembler (R54, R55): the words of an operand, of a line and of each pseudo-instruction, and O56, O57, O58 from
it. -/

namespace Sys2Proof.Machine

open Sys2Proof.Safety

/-! ## Operands -/

theorem asmParam_of_isWord {x : Int} (hx : IsWord x) (m : Mode) : asmParam m (.ok x) = .ok ⟨m, wrap64 x⟩ := by
  simp only [asmParam, asmWord, if_pos hx]

theorem asmParam_of_not_isWord {x : Int} (hx : ¬ IsWord x) (m : Mode) : asmParam m (.ok x) = .error .notAWord := by
  simp only [asmParam, asmWord, if_neg hx]

/-- `[rb-n]` is refused exactly where `n` or `-n` is no word. -/
theorem asmParam_asmNeg (m : Mode) (x : Int) :
    asmParam m (asmNeg (.ok x)) = if IsWord x ∧ IsWord (-x) then .ok ⟨m, wrap64 (-x)⟩ else .error .notAWord := by
  by_cases hx : IsWord x
  · rw [asmNeg, if_pos hx]
    by_cases hn : IsWord (-x)
    · rw [asmParam_of_isWord hn, if_pos ⟨hx, hn⟩]
    · rw [asmParam_of_not_isWord hn, if_neg (fun h => hn h.2)]
  · rw [asmNeg, if_neg hx, if_neg (fun h => hx h.1)]
    rfl

/-- Settles O58: every form but `[rb-n]` takes the number as it is. -/
theorem operandForms : Obligations.OperandForms := by
  refine fun labels => ⟨fun x => rfl, fun n a h => ?_, fun n h => ?_, fun n x h => ⟨?_, ?_, ?_, ?_⟩⟩
  · simp only [AsmValue.eval, h]
  · simp only [AsmValue.eval, h]
  · intro hx
    simp only [AsmOperand.param, h, asmParam_of_isWord hx]
    exact ⟨wrap64 x, toInt_wrap64_of_isWord hx, rfl, rfl, rfl⟩
  · intro hx hn
    simp only [AsmOperand.param, h, asmParam_asmNeg, if_pos (And.intro hx hn)]
    exact ⟨wrap64 (-x), toInt_wrap64_of_isWord hn, rfl⟩
  · intro hx
    simp only [AsmOperand.param, h, asmParam_of_not_isWord hx, and_self]
  · intro hx
    simp only [AsmOperand.param, h, asmParam_asmNeg, if_neg hx]

/-! ## Lines -/

/-- With its parameters known, a line is the encoding of their instruction, unless that would store to an Immediate. -/
theorem assembleInstr_of_params {labels : List (List Char × Nat)} {op : AsmOp} {os operands : List AsmOperand}
    {o : Opcode} {ps : List Param} (hop : expandPseudo op os = .ok (o, operands))
    (hps : operands.map (AsmOperand.param labels) = ps.map .ok) (hlen : ps.length = o.arity) :
    assembleInstr labels op os =
      if (asmInstr o ps).wellFormed then .ok (encode (asmInstr o ps)) else .error .immediateDestination := by
  have hall := (asmAll_ok_iff (AsmOperand.param labels) operands ps).mpr hps
  simp only [assembleInstr, hop, hall, if_pos hlen]

theorem assembleInstr_ok_iff {labels : List (List Char × Nat)} {op : AsmOp} {os : List AsmOperand} {ws : List Word} :
    assembleInstr labels op os = .ok ws ↔ ∃ o operands ps, expandPseudo op os = .ok (o, operands) ∧
      operands.map (AsmOperand.param labels) = ps.map .ok ∧ ps.length = o.arity ∧ (asmInstr o ps).wellFormed = true ∧
      ws = encode (asmInstr o ps) := by
  constructor
  · intro h
    rcases hop : expandPseudo op os with e | ⟨o, operands⟩
    · simp [assembleInstr, hop] at h
    rcases hall : asmAll (AsmOperand.param labels) operands with e | ps
    · simp [assembleInstr, hop, hall] at h
    have hps := (asmAll_ok_iff _ _ _).mp hall
    by_cases hlen : ps.length = o.arity
    · rw [assembleInstr_of_params hop hps hlen] at h
      split at h <;> cases h
      next hwf => exact ⟨o, operands, ps, rfl, hps, hlen, hwf, rfl⟩
    · simp [assembleInstr, hop, hall, hlen] at h
  · rintro ⟨o, operands, ps, hop, hps, hlen, hwf, rfl⟩
    rw [assembleInstr_of_params hop hps hlen, if_pos hwf]

/-- The words of an instruction whose absent modes are Position, from its opcode and parameters (R42, R52). -/
theorem encode_eq_words {i : Instr} (h : ∀ m ∈ absentModes i, m = .position) :
    encode i = encodeOpcode i.opcode (((operandsOf i).map Param.mode).getD 0 .position)
      (((operandsOf i).map Param.mode).getD 1 .position) (((operandsOf i).map Param.mode).getD 2 .position) ::
        (operandsOf i).map Param.raw := by
  cases i <;> simp_all [encode, absentModes, operandsOf, Instr.opcode]

theorem decodeWords_encode (i : Instr) : decodeWords (encode i) = .ok i := by
  simpa using decodeOfEncode i []

/-- Settles O56: the instruction of a line is the one its opcode, parameters and Position modes determine. -/
theorem assembledLinesDecode : Obligations.AssembledLinesDecode := by
  intro labels op os ws
  rw [assembleInstr_ok_iff]
  constructor
  · rintro ⟨o, operands, ps, hop, hps, hlen, hwf, rfl⟩
    obtain ⟨ho, hops, habsent⟩ := asmInstr_spec o ps hlen
    have hwords := encode_eq_words habsent
    rw [ho, hops] at hwords
    exact ⟨o, operands, ps, asmInstr o ps, hop, hps, hlen, ho, hops, habsent, hwf, hwords, decodeWords_encode _⟩
  · rintro ⟨o, operands, ps, i, hop, hps, hlen, rfl, rfl, habsent, hwf, rfl, -⟩
    refine ⟨_, operands, _, hop, hps, hlen, ?_, ?_⟩
    · rwa [← eq_asmInstr i habsent]
    · rw [← eq_asmInstr i habsent, encode_eq_words habsent]

/-! ## Pseudo-instructions -/

theorem param_imm_num {x : Int} (hx : IsWord x) (labels : List (List Char × Nat)) :
    (AsmOperand.imm (.num x)).param labels = .ok ⟨.immediate, wrap64 x⟩ :=
  asmParam_of_isWord hx _

theorem assemble_jmp {labels : List (List Char × Nat)} {t : AsmOperand} {p : Param} (h : t.param labels = .ok p) :
    assembleInstr labels .jmp [t] = .ok (encode (.jnz ⟨.immediate, 1⟩ p .position)) := by
  have hps : [.imm (.num 1), t].map (AsmOperand.param labels) = [⟨.immediate, 1⟩, p].map .ok := by
    simp only [List.map_cons, List.map_nil, h, param_imm_num (x := 1) (by decide)]
    rfl
  exact assembleInstr_of_params (o := .jnz) rfl hps rfl

theorem assemble_nop (labels : List (List Char × Nat)) : assembleInstr labels .nop [] = .ok [1106, 1, 0] := by
  have hps : [.imm (.num 1), .imm (.num 0)].map (AsmOperand.param labels) =
      [⟨.immediate, 1⟩, ⟨.immediate, 0⟩].map .ok := by
    simp only [List.map_cons, List.map_nil, param_imm_num (x := 1) (by decide), param_imm_num (x := 0) (by decide)]
    rfl
  exact assembleInstr_of_params (o := .jz) rfl hps rfl

theorem assemble_mov {labels : List (List Char × Nat)} {src dst : AsmOperand} {p q : Param}
    (hp : src.param labels = .ok p) (hq : dst.param labels = .ok q) :
    assembleInstr labels .mov [src, dst] = if q.mode = .immediate then .error .immediateDestination
      else .ok (encode (.add p ⟨.immediate, 0⟩ q)) := by
  have hps : [src, .imm (.num 0), dst].map (AsmOperand.param labels) = [p, ⟨.immediate, 0⟩, q].map .ok := by
    simp only [List.map_cons, List.map_nil, hp, hq, param_imm_num (x := 0) (by decide)]
    rfl
  refine (assembleInstr_of_params (o := .add) rfl hps rfl).trans ?_
  by_cases hm : q.mode = .immediate <;> simp [asmInstr, Decoded.toInstr, Instr.wellFormed, Instr.writeOperand, hm]

theorem operandFault_immediate (s : State) (w : Word) : operandFault s false ⟨.immediate, w⟩ = none := rfl

theorem value_immediate (s : State) (w : Word) : value s ⟨.immediate, w⟩ = w := rfl

theorem lenAfterRead_immediate (s : State) (w : Word) (L : Nat) : lenAfterRead s ⟨.immediate, w⟩ L = L := rfl

/-- `JNZ 1, t` jumps to every target that is not negative. -/
theorem exec_jmp {s : State} {p : Param} (h : operandFault s false p = none) (hv : 0 ≤ (value s p).toInt) :
    ∃ u, exec (.jnz ⟨.immediate, 1⟩ p .position) s = .next u ∧ (∀ n, memRead u n = memRead s n) ∧
      u = { s with ip := value s p, mem := u.mem, len := lenAfterRead s p s.len } := by
  have hno : firstFault (.jnz ⟨.immediate, 1⟩ p .position) s = none := by
    simp [firstFault, jumpFault, operandFault_immediate, h, hv]
  obtain ⟨u, hu, hread, heq⟩ := jumpNonzeroResult s _ p .position hno
  refine ⟨u, hu, hread, ?_⟩
  rwa [value_immediate, if_neg (by decide), lenAfterRead_immediate] at heq

theorem exec_nop (s : State) :
    exec (.jz ⟨.immediate, 1⟩ ⟨.immediate, 0⟩ .position) s = .next { s with ip := s.ip + 3 } := rfl

theorem add64_zero (P : Params) (x : Word) : add64 P x 0 = .ok x := by
  have h0 : (0 : Word).toInt = 0 := rfl
  rw [add64, h0, Int.add_zero, fit, if_pos (isWord_toInt x), wrap64, BitVec.ofInt_toInt]

/-- `ADD s, 0, d` never overflows, so it copies. -/
theorem exec_mov {s : State} {p q : Param} (hp : operandFault s false p = none) (hq : operandFault s true q = none) :
    ∃ u, exec (.add p ⟨.immediate, 0⟩ q) s = .next u ∧ memRead u (address s q).toNat = value s p ∧
      (∀ n, n ≠ (address s q).toNat → memRead u n = memRead s n) ∧
      u = { s with
        ip := s.ip + 4, mem := u.mem, len := max (lenAfterRead s p s.len) ((address s q).toNat + 1) } := by
  have hno : binaryFault s p ⟨.immediate, 0⟩ q = none := by simp [binaryFault, operandFault_immediate, hp, hq]
  exact execBinary_of_no_fault hno (add64_zero s.params (value s p))

/-- Settles O57: the words of each pseudo-instruction, and what the instruction it stands for does. -/
theorem pseudoInstructions : Obligations.PseudoInstructions := by
  refine ⟨fun labels t p h => ⟨assemble_jmp h, fun hm => ?_, fun s hno hv => exec_jmp hno hv⟩,
    fun labels => ⟨assemble_nop labels, by decide, exec_nop⟩,
    fun labels src dst p q hp hq => ⟨fun hm => ?_, fun hm => ?_, fun s hnp hnq => exec_mov hnp hnq⟩⟩
  · rw [assemble_jmp h, encode, hm]
    rfl
  · rw [assemble_mov hp hq, if_pos hm]
  · rw [assemble_mov hp hq, if_neg hm]

end Sys2Proof.Machine
